-- ==== Sys2Proof/Word.lean ====
section
/-! DEFINITION. The words, codes and numbers of the hardware: command and response words, letter codes, five-bit units, slot and wheel numbers. -/

namespace Sys2Proof

/-- A command word: every command is one 16-bit word (30_encoding.md R71). -/
abbrev CommandWord := BitVec 16

/-- A response word: status in bits 7:6, data in bits 5:0 (30_encoding.md R74). -/
abbrev ResponseWord := BitVec 8

/-- A letter code, A = 0 to Z = 25 (00_scope.md R9). The codes 26 to 31 of a port field are not letters. -/
abbrev Letter := Fin 26

/-- A 5-bit ITA2 unit, the datum of the LORENZ unit (00_scope.md section 6). -/
abbrev CodeUnit := BitVec 5

/-- A rotor slot: 0 right, 1 centre, 2 left, 3 fourth (10_state.md section 2). -/
abbrev Slot := Fin 4

/-- A Lorenz wheel: 0..4 Chi 1..5, 5 and 6 Motor 1 and 2, 7..11 Psi 1..5 (10_state.md section 4). -/
abbrev Wheel := Fin 12

/-- The slots by their names (10_state.md section 2). -/
abbrev Slot.right : Slot := 0
abbrev Slot.centre : Slot := 1
abbrev Slot.left : Slot := 2
abbrev Slot.fourth : Slot := 3

end Sys2Proof
end

