-- ==== Sys2Proof/Syntax.lean ====
section
/-! DEFINITION. The thirteen commands, one constructor for each row of spec/opcode_table.json. -/

namespace Sys2Proof

/-- A command (30_encoding.md R73). An operand field is an unsigned integer, used as it stands (R72): a letter code,
an id, a ring setting, a position and a wheel number are numbers that the rules compare with a range; a slot is one
of four; the operand of `LENC` is a 5-bit unit that the rule treats as bits. -/
inductive Instr
  /-- `ERST`, format Z. -/
  | erst
  /-- `ESEL slot, id`, format S. -/
  | esel (slot : Slot) (id : Nat)
  /-- `EPOS slot, pos`, format S; `pos` is the one-based window position. -/
  | epos (slot : Slot) (pos : Nat)
  /-- `ERING slot, ring`, format S. -/
  | ering (slot : Slot) (ring : Nat)
  /-- `EREFL id`, format V with `f = 0`. -/
  | erefl (id : Nat)
  /-- `EPLUG a, b`, format P. -/
  | eplug (a b : Nat)
  /-- `EUNPLUG a`, format V with `f = 0`. -/
  | eunplug (a : Nat)
  /-- `EENC x, n`, format V; `f` is true when `n` is 4 (the fourth rotor is in the path). -/
  | eenc (f : Bool) (x : Nat)
  /-- `ERDPOS slot`, format S with `v = 0`. -/
  | erdpos (slot : Slot)
  /-- `LRST`, format Z. -/
  | lrst
  /-- `LPOS wheel, p`, format W. -/
  | lpos (wheel p : Nat)
  /-- `LENC u`, format V with `f = 0`. -/
  | lenc (u : CodeUnit)
  /-- `LRDPOS wheel`, format W with `p = 0`. -/
  | lrdpos (wheel : Nat)
  deriving DecidableEq, Repr

end Sys2Proof
end

