-- ==== Sys2Proof/WellFormed.lean ====
section
/-! DEFINITION. The static check of a command: every operand fits the field that carries it (30_encoding.md R71, R72). -/

namespace Sys2Proof

/-- Every operand fits its field: 5 bits for `v`, `a`, `b`; 4 for `wheel`; 6 for `p`. Values in the field but out of
the command's range (position 0, letter 26, wheel 12) are well formed: the command itself answers them with a status
(30_encoding.md R72). -/
def Instr.wellFormed : Instr → Bool
  | .erst => true
  | .esel _ id => decide (id < 32)
  | .epos _ pos => decide (pos < 32)
  | .ering _ ring => decide (ring < 32)
  | .erefl id => decide (id < 32)
  | .eplug a b => decide (a < 32) && decide (b < 32)
  | .eunplug a => decide (a < 32)
  | .eenc _ x => decide (x < 32)
  | .erdpos _ => true
  | .lrst => true
  | .lpos wheel p => decide (wheel < 16) && decide (p < 64)
  | .lenc _ => true
  | .lrdpos wheel => decide (wheel < 16)

/-- The command is well formed. -/
abbrev Instr.WellFormed (i : Instr) : Prop := i.wellFormed = true

end Sys2Proof
end

