-- ==== Sys2Proof/Decode.lean ====
section
/-! DEFINITION. Decoding of a command word, total and rejecting by name (30_encoding.md R71 to R77), and the encoder. -/

namespace Sys2Proof

/-- Why a word is not a command (30_encoding.md R75, R76). Both answer `IllegalCommand`. -/
inductive DecodeError
  /-- The opcode is 0x0, 0xE or 0xF (R75). -/
  | reservedOpcode
  /-- The opcode is one of the thirteen and a must-be-zero bit of its format is 1 (R76). -/
  | mustBeZeroBitSet
  deriving DecidableEq, Repr

/-- A row of the opcode map (30_encoding.md R73): a word is the command exactly when `(c and mask) = pattern`. -/
structure OpcodeRow where
  mnemonic : String
  pattern : CommandWord
  mask : CommandWord
  deriving DecidableEq, Repr

/-- `(c and mask) = match` of 30_encoding.md R73. -/
def OpcodeRow.hits (r : OpcodeRow) (c : CommandWord) : Bool := decide (c &&& r.mask = r.pattern)

def rowErst : OpcodeRow := ⟨"ERST", 0x1000, 0xFFFF⟩
def rowEsel : OpcodeRow := ⟨"ESEL", 0x2000, 0xF3E0⟩
def rowEpos : OpcodeRow := ⟨"EPOS", 0x3000, 0xF3E0⟩
def rowEring : OpcodeRow := ⟨"ERING", 0x4000, 0xF3E0⟩
def rowErefl : OpcodeRow := ⟨"EREFL", 0x5000, 0xFFE0⟩
def rowEplug : OpcodeRow := ⟨"EPLUG", 0x6000, 0xFC00⟩
def rowEunplug : OpcodeRow := ⟨"EUNPLUG", 0x7000, 0xFFE0⟩
def rowEenc : OpcodeRow := ⟨"EENC", 0x8000, 0xFFC0⟩
def rowErdpos : OpcodeRow := ⟨"ERDPOS", 0x9000, 0xF3FF⟩
def rowLrst : OpcodeRow := ⟨"LRST", 0xA000, 0xFFFF⟩
def rowLpos : OpcodeRow := ⟨"LPOS", 0xB000, 0xF0C0⟩
def rowLenc : OpcodeRow := ⟨"LENC", 0xC000, 0xFFE0⟩
def rowLrdpos : OpcodeRow := ⟨"LRDPOS", 0xD000, 0xF0FF⟩

/-- The opcode map (30_encoding.md R73), in its order. -/
def opcodeRows : List OpcodeRow :=
  [rowErst, rowEsel, rowEpos, rowEring, rowErefl, rowEplug, rowEunplug, rowEenc, rowErdpos, rowLrst, rowLpos,
    rowLenc, rowLrdpos]

/-- The row of the opcode map that a command belongs to (30_encoding.md R73). -/
def rowOf : Instr → OpcodeRow
  | .erst => rowErst
  | .esel _ _ => rowEsel
  | .epos _ _ => rowEpos
  | .ering _ _ => rowEring
  | .erefl _ => rowErefl
  | .eplug _ _ => rowEplug
  | .eunplug _ => rowEunplug
  | .eenc _ _ => rowEenc
  | .erdpos _ => rowErdpos
  | .lrst => rowLrst
  | .lpos _ _ => rowLpos
  | .lenc _ => rowLenc
  | .lrdpos _ => rowLrdpos

/-- `op`, bits 15:12 in every format (30_encoding.md R71). -/
def opField (c : CommandWord) : Nat := (c.extractLsb' 12 4).toNat

/-- `slot`, bits 11:10 of format S. -/
def slotField (c : CommandWord) : Slot := (c.extractLsb' 10 2).toFin

/-- `v`, bits 4:0 of formats S and V (and `b` of format P). -/
def vField (c : CommandWord) : Nat := (c.extractLsb' 0 5).toNat

/-- `a`, bits 9:5 of format P. -/
def aField (c : CommandWord) : Nat := (c.extractLsb' 5 5).toNat

/-- `f`, bit 5 of format V. -/
def fField (c : CommandWord) : Bool := c.getLsbD 5

/-- `wheel`, bits 11:8 of format W. -/
def wheelField (c : CommandWord) : Nat := (c.extractLsb' 8 4).toNat

/-- `p`, bits 5:0 of format W. -/
def pField (c : CommandWord) : Nat := (c.extractLsb' 0 6).toNat

/-- The five-bit unit operand of `LENC`, the field `v` as bits. -/
def unitField (c : CommandWord) : CodeUnit := c.extractLsb' 0 5

/-- Reserved opcodes (30_encoding.md R75). -/
def isReservedOpcode (op : Nat) : Bool := op == 0x0 || op == 0xE || op == 0xF

/-- Decoding (30_encoding.md R73, R75, R76, R77): a word is a command exactly when it matches its row. -/
def decode (c : CommandWord) : Except DecodeError Instr :=
  if rowErst.hits c then .ok .erst
  else if rowEsel.hits c then .ok (.esel (slotField c) (vField c))
  else if rowEpos.hits c then .ok (.epos (slotField c) (vField c))
  else if rowEring.hits c then .ok (.ering (slotField c) (vField c))
  else if rowErefl.hits c then .ok (.erefl (vField c))
  else if rowEplug.hits c then .ok (.eplug (aField c) (vField c))
  else if rowEunplug.hits c then .ok (.eunplug (vField c))
  else if rowEenc.hits c then .ok (.eenc (fField c) (vField c))
  else if rowErdpos.hits c then .ok (.erdpos (slotField c))
  else if rowLrst.hits c then .ok .lrst
  else if rowLpos.hits c then .ok (.lpos (wheelField c) (pField c))
  else if rowLenc.hits c then .ok (.lenc (unitField c))
  else if rowLrdpos.hits c then .ok (.lrdpos (wheelField c))
  else if isReservedOpcode (opField c) then .error .reservedOpcode
  else .error .mustBeZeroBitSet

/-- Format Z (30_encoding.md R71): `op`, then twelve zeros. -/
def formatZ (op : BitVec 4) : CommandWord := op ++ 0#12

/-- Format S: `op`, `slot`, five zeros, `v`. -/
def formatS (op : BitVec 4) (slot : BitVec 2) (v : BitVec 5) : CommandWord := op ++ slot ++ 0#5 ++ v

/-- Format P: `op`, two zeros, `a`, `b`. -/
def formatP (op : BitVec 4) (a b : BitVec 5) : CommandWord := op ++ 0#2 ++ a ++ b

/-- Format V: `op`, six zeros, `f`, `v`. -/
def formatV (op : BitVec 4) (f : BitVec 1) (v : BitVec 5) : CommandWord := op ++ 0#6 ++ f ++ v

/-- Format W: `op`, `wheel`, two zeros, `p`. -/
def formatW (op : BitVec 4) (wheel : BitVec 4) (p : BitVec 6) : CommandWord := op ++ wheel ++ 0#2 ++ p

/-- The word of a well-formed command (30_encoding.md R71, R73). -/
def encode : Instr → CommandWord
  | .erst => formatZ 0x1
  | .esel slot id => formatS 0x2 (BitVec.ofFin slot) (BitVec.ofNat 5 id)
  | .epos slot pos => formatS 0x3 (BitVec.ofFin slot) (BitVec.ofNat 5 pos)
  | .ering slot ring => formatS 0x4 (BitVec.ofFin slot) (BitVec.ofNat 5 ring)
  | .erefl id => formatV 0x5 0 (BitVec.ofNat 5 id)
  | .eplug a b => formatP 0x6 (BitVec.ofNat 5 a) (BitVec.ofNat 5 b)
  | .eunplug a => formatV 0x7 0 (BitVec.ofNat 5 a)
  | .eenc f x => formatV 0x8 (BitVec.ofBool f) (BitVec.ofNat 5 x)
  | .erdpos slot => formatS 0x9 (BitVec.ofFin slot) 0
  | .lrst => formatZ 0xA
  | .lpos wheel p => formatW 0xB (BitVec.ofNat 4 wheel) (BitVec.ofNat 6 p)
  | .lenc u => formatV 0xC 0 u
  | .lrdpos wheel => formatW 0xD (BitVec.ofNat 4 wheel) 0

/-- The word made of the `nbits` low bits of `w`, every bit above them 0. -/
def tableWord (nbits w : Nat) : CommandWord := BitVec.ofNat 16 (w % 2 ^ nbits)

/-- The instruction the decoder reads from the instruction whose bits are `w`. A command is one 16-bit word, so the
table's numbering of bits is the word's own (00_scope.md R6). -/
def decodeTableWord (nbits w : Nat) : Option Instr := (decode (tableWord nbits w)).toOption

end Sys2Proof
end

