-- ==== Sys2Proof/Config.lean ====
section
/-! DEFINITION. The configuration record of 00_scope.md R4: the parameters the spec leaves to the device as built, with the constraints of R5 carried by the data, and the free cam bits. -/

namespace Sys2Proof

/-- `LEN[0..11]`, the fixed wheel lengths (00_scope.md R4, 43_lorenz.md R180). -/
def wheelLen : Vector Nat 12 := #v[41, 31, 29, 26, 23, 61, 37, 43, 47, 51, 53, 59]

/-- "every value 0–25 appears exactly once" (00_scope.md R5). -/
def isPermutation (wiring : Vector Letter 26) : Bool :=
  decide (∀ j : Letter, wiring.toList.count j = 1)

/-- `w[w[i]] = i` for all `i` (00_scope.md R5). -/
def isInvolution (wiring : Vector Letter 26) : Bool :=
  decide (∀ i : Letter, wiring[wiring[i]] = i)

/-- A rotor specification (20_memory.md R52): a name (no rule reads it), a wiring permutation, a set of turnover
positions given by its members. The bijectivity that R5 asks of a table is carried by the data. -/
structure RotorSpec where
  name : List Char
  wiring : Vector Letter 26
  turnover : List Letter
  bijective : isPermutation wiring = true
  deriving DecidableEq, Repr

/-- A reflector specification (20_memory.md R55): an involutive wiring and no turnover positions. -/
structure ReflSpec where
  name : List Char
  wiring : Vector Letter 26
  involutive : isInvolution wiring = true
  deriving DecidableEq, Repr

/-- The cam table (20_memory.md R56): one bit pattern for each wheel, `CAM[w]` of exactly `LEN[w]` entries (R5). -/
structure CamTable where
  pattern : Vector (List Bool) 12
  lengths : pattern.toList.map List.length = wheelLen.toList
  deriving DecidableEq, Repr

/-- When the Psi drive reads Motor 2's cam (00_scope.md R4, 43_lorenz.md R188). -/
inductive M2Sample
  | after
  | before
  deriving DecidableEq, Repr

/-- The parameters that are open (00_scope.md R4): the rotor table at ids 3 to 31 (entry `k` is id `k + 3`), the
reflector table at ids 1 to 31 (entry `k` is id `k + 1`), the cam table, and `M2_SAMPLE`. The pinned ids are not
parameters. -/
structure Config where
  extraRotors : Vector (Option RotorSpec) 29
  extraRefls : Vector (Option ReflSpec) 31
  cams : CamTable
  m2Sample : M2Sample
  deriving DecidableEq, Repr

/-- FREE VALUE (92_eei_decisions.md D19, log entry 2): the cam bit of wheel `w` at index `i` of the device as built.
The spec gives no pattern, so nothing here fixes one. -/
opaque Config.camBit : Nat → Nat → Bool

end Sys2Proof
end

