-- ==== Sys2Proof/Machine/Tables.lean ====
section
/-! DEFINITION. The pinned rotor and reflector tables (20_memory.md R54, R55), the lookups by id, and the configuration record of the device as built. -/

namespace Sys2Proof.Machine

/-- `WIR(0)`, rotor I (20_memory.md R54). -/
def wiringI : Vector Letter 26 :=
  #v[4, 10, 12, 5, 11, 6, 3, 16, 21, 25, 13, 19, 14, 22, 24, 7, 23, 20, 18, 15, 0, 8, 1, 17, 2, 9]

/-- `WIR(1)`, rotor II (20_memory.md R54). -/
def wiringII : Vector Letter 26 :=
  #v[0, 9, 3, 10, 18, 8, 17, 20, 23, 1, 11, 7, 22, 19, 12, 2, 16, 6, 25, 13, 15, 24, 5, 21, 14, 4]

/-- `WIR(2)`, rotor III (20_memory.md R54). -/
def wiringIII : Vector Letter 26 :=
  #v[1, 3, 5, 7, 9, 11, 2, 15, 17, 19, 23, 21, 25, 13, 24, 4, 8, 22, 6, 0, 10, 12, 20, 18, 16, 14]

/-- `REFL(0)`, reflector UKW-B (20_memory.md R55). -/
def wiringUkwB : Vector Letter 26 :=
  #v[24, 17, 20, 7, 16, 18, 11, 3, 15, 23, 13, 6, 14, 10, 12, 8, 4, 1, 5, 25, 2, 22, 21, 9, 0, 19]

/-- Rotor id 0 (20_memory.md R54): turnover Q. -/
def rotorI : RotorSpec := ⟨['I'], wiringI, [16], by decide⟩

/-- Rotor id 1 (20_memory.md R54): turnover E. -/
def rotorII : RotorSpec := ⟨['I', 'I'], wiringII, [4], by decide⟩

/-- Rotor id 2 (20_memory.md R54): turnover V. -/
def rotorIII : RotorSpec := ⟨['I', 'I', 'I'], wiringIII, [21], by decide⟩

/-- Reflector id 0 (20_memory.md R55). -/
def reflUkwB : ReflSpec := ⟨['U', 'K', 'W', '-', 'B'], wiringUkwB, by decide⟩

/-- `ROTOR_ROM[id]`, `none` where the id is absent (00_scope.md R4, 20_memory.md R52, R54). -/
def rotorRom (c : Config) (id : Nat) : Option RotorSpec :=
  match id with
  | 0 => some rotorI
  | 1 => some rotorII
  | 2 => some rotorIII
  | k + 3 => if h : k < 29 then c.extraRotors[k] else none

/-- `REFL_ROM[id]`, `none` where the id is absent (00_scope.md R4, 20_memory.md R55). -/
def reflRom (c : Config) (id : Nat) : Option ReflSpec :=
  match id with
  | 0 => some reflUkwB
  | k + 1 => if h : k < 31 then c.extraRefls[k] else none

/-- The 26 letters, A to Z. -/
def allLetters : List Letter :=
  [0, 1, 2, 3, 4, 5, 6, 7, 8, 9, 10, 11, 12, 13, 14, 15, 16, 17, 18, 19, 20, 21, 22, 23, 24, 25]

/-- `WIR(id)[i]` (20_memory.md R52). -/
def wir (r : RotorSpec) (i : Letter) : Letter := r.wiring[i]

/-- `WIRINV(id)[j]`: the index whose entry is `j` (20_memory.md R53). It exists because the wiring is a bijection. -/
def wirInv (r : RotorSpec) (j : Letter) : Letter := Fin.ofNat 26 (r.wiring.toList.idxOf j)

/-- `CAM[w][i]` (20_memory.md R56). An index in `[0, LEN[w])` has an entry by the table's own constraint (00_scope.md
R5); the value for another index is read by no rule. -/
def camAt (t : CamTable) (w : Wheel) (i : Nat) : Bool := t.pattern[w][i]?.getD false

/-- One wheel's row of free cam bits, `LEN[w]` of them. -/
def freeCamRow (w : Wheel) : List Bool := (List.range wheelLen[w]).map (Config.camBit w)

/-- The cam table of the device as built: every bit free (20_memory.md R56, log entry 2). -/
def freeCams : CamTable where
  pattern := #v[freeCamRow 0, freeCamRow 1, freeCamRow 2, freeCamRow 3, freeCamRow 4, freeCamRow 5, freeCamRow 6,
    freeCamRow 7, freeCamRow 8, freeCamRow 9, freeCamRow 10, freeCamRow 11]
  lengths := by decide

/-- The default configuration record (00_scope.md R4): no id but the pinned ones, `M2_SAMPLE = after`, with a given cam
table. -/
def defaultConfig (cams : CamTable) : Config where
  extraRotors := Vector.replicate 29 none
  extraRefls := Vector.replicate 31 none
  cams := cams
  m2Sample := .after

end Sys2Proof.Machine
end

