-- ==== Sys2Proof/Machine/State.lean ====
section
/-! DEFINITION. The state of the device, its ports, the state after reset, and the reasons a step can stop. -/

namespace Sys2Proof.Machine

/-- The ENIGMA unit's registers (10_state.md R21 to R26), by the spec's names. -/
structure EnigmaRegs where
  /-- `e.pos[s]`, the shown positions (R21). -/
  pos : Vector (BitVec 5) 4
  /-- `e.ring[s]`, the ring settings (R22). -/
  ring : Vector (BitVec 5) 4
  /-- `e.selv[s]`, set when slot `s` holds a rotor (R24). -/
  selv : Vector Bool 4
  /-- `e.sel[s]`, the rotor id of slot `s`, without meaning while `e.selv[s]` is 0 (R24). -/
  sel : Vector (BitVec 5) 4
  /-- `e.refv`, set when a reflector is selected (R25). -/
  refv : Bool
  /-- `e.ref`, the reflector id, without meaning while `e.refv` is 0 (R25). -/
  ref : BitVec 5
  /-- `e.plug[l]`, `none` for `NONE` (R26, 92_eei_decisions.md D30). -/
  plug : Vector (Option Letter) 26
  deriving DecidableEq, Repr

/-- The LORENZ unit's registers (10_state.md R28). -/
structure LorenzRegs where
  /-- `l.pos[w]`, the position pointers (R28). -/
  pos : Vector (BitVec 6) 12
  deriving DecidableEq, Repr

/-- What the host does at the device's inputs (30_encoding.md R70, 70_reset_and_hazards.md R270). -/
inductive HostEvent
  /-- The host presents a command word. -/
  | command (word : CommandWord)
  /-- The host asserts `rst` between commands. -/
  | rst
  /-- The host presents a command word and asserts `rst` before the response: the command is abandoned (R270). -/
  | commandCutByRst (word : CommandWord)
  deriving DecidableEq, Repr

/-- The device and its ports. `cfg` is the configuration record of 00_scope.md R4, which is not state in the spec
(10_state.md R20): it rides here because a step has no other argument, and no step changes it (20_memory.md R51, log
entry 1). `inputs` and `rsp` are the ports (log entries 6 and 7). -/
structure State where
  /-- The ENIGMA unit. -/
  e : EnigmaRegs
  /-- The LORENZ unit. -/
  l : LorenzRegs
  /-- The constant configuration record. -/
  cfg : Config
  /-- What the host still does, oldest first. -/
  inputs : List HostEvent
  /-- The response port: the word presented, if any. -/
  rsp : Option ResponseWord
  deriving DecidableEq, Repr

/-- Why a step can stop. The spec stops the machine nowhere: both reasons arise only in states that break an invariant
the spec states, which no run reaches. -/
inductive Fault
  /-- Raised by `EENC` when a slot or the reflector is marked selected and its id has no table entry, against
  10_state.md R24, R25. Safe: the spec gives no rule for such a state (20_memory.md R59), and no run reaches one. -/
  | absentTableEntry
  /-- Raised by `LENC` when a wheel's position is not below its length, against 10_state.md R29. Safe: the spec gives no
  rule for such a state (20_memory.md R59), and no run reaches one. -/
  | camIndexOutOfRange
  deriving DecidableEq, Repr

/-- Why the model gives an instruction no meaning. -/
inductive Refusal
  /-- Raised by the dispatch for an instruction that has no meaning yet. Safe: nothing is proved of it. No arm raises
  it: every command has its meaning. -/
  | notModelled (mnemonic : String)
  deriving DecidableEq, Repr

/-- The ENIGMA registers after reset (10_state.md section 7, 70_reset_and_hazards.md R270). -/
def EnigmaRegs.reset : EnigmaRegs where
  pos := Vector.replicate 4 0
  ring := Vector.replicate 4 0
  selv := Vector.replicate 4 false
  sel := Vector.replicate 4 0
  refv := false
  ref := 0
  plug := Vector.replicate 26 none

/-- The LORENZ registers after reset (10_state.md section 7, 70_reset_and_hazards.md R270). -/
def LorenzRegs.reset : LorenzRegs where
  pos := Vector.replicate 12 0

/-- The machine right after reset (70_reset_and_hazards.md R270, R271): every register at its reset value, the default
configuration record with free cam bits, nothing presented at the ports. -/
def State.reset : State where
  e := EnigmaRegs.reset
  l := LorenzRegs.reset
  cfg := defaultConfig freeCams
  inputs := []
  rsp := none

end Sys2Proof.Machine
end

