-- ==== Sys2Proof/Machine/Flags.lean ====
section
/-! DEFINITION. The device has no stored flag (10_state.md R31). What stands here is the status class of a response (30_encoding.md R74) and the conditions the rules recompute each time they use them. -/

namespace Sys2Proof.Machine

/-- The status of a response (30_encoding.md R74, 60_exceptions.md R240). -/
inductive Status
  | ok
  | configurationError
  | invalidInputError
  | illegalCommand
  deriving DecidableEq, Repr

/-- The status numbers (30_encoding.md R74). -/
def statusCode : Status → BitVec 2
  | .ok => 0
  | .configurationError => 1
  | .invalidInputError => 2
  | .illegalCommand => 3

/-- The response word: `rsp[7:6]` the status, `rsp[5:0]` the data (30_encoding.md R74). -/
def responseWord (st : Status) (data : BitVec 6) : ResponseWord := statusCode st ++ data

/-- The status field of a response word. -/
def rspStatus (r : ResponseWord) : BitVec 2 := r.extractLsb' 6 2

/-- The data field of a response word. -/
def rspData (r : ResponseWord) : BitVec 6 := r.extractLsb' 0 6

/-- The specification of the rotor in slot `s`: `ROTOR_ROM[e.sel[s]]` when `e.selv[s] = 1` (10_state.md R24). -/
def rotorIn (c : Config) (e : EnigmaRegs) (s : Slot) : Option RotorSpec :=
  if e.selv[s] then rotorRom c e.sel[s].toNat else none

/-- The specification of the reflector: `REFL_ROM[e.ref]` when `e.refv = 1` (10_state.md R25). -/
def reflectorIn (c : Config) (e : EnigmaRegs) : Option ReflSpec := if e.refv then reflRom c e.ref.toNat else none

/-- `Configured(f)` (42_enigma_machine.md R151). -/
def configured (e : EnigmaRegs) (f : Bool) : Bool :=
  e.selv[Slot.right] && e.selv[Slot.centre] && e.selv[Slot.left] && e.refv && (!f || e.selv[Slot.fourth])

/-- `AtNotch(s)` for a slot that holds `r`: the raw shown position is a turnover position (40_enigma_rotor.md R102). -/
def atNotch (r : RotorSpec) (e : EnigmaRegs) (s : Slot) : Bool := r.turnover.any fun t => t.val == e.pos[s].toNat

/-- `CamState(w)` (43_lorenz.md R181). -/
def camState (t : CamTable) (l : LorenzRegs) (w : Wheel) : Bool := camAt t w l.pos[w].toNat

/-- Every wheel's position is below its length (10_state.md R29). -/
def wheelsInRange (l : LorenzRegs) : Bool := decide (∀ w : Wheel, l.pos[w].toNat < wheelLen[w])

end Sys2Proof.Machine
end

