-- ==== Sys2Proof/Machine/Operands.lean ====
section
/-! DEFINITION. Every operand form (30_encoding.md R72): letters, one-based positions, rings, wheels and wheel positions, with the range each rule checks; and the arithmetic mod 26. -/

namespace Sys2Proof.Machine

/-- `a mod 26` for an integer `a`, the unique non-negative remainder (00_scope.md R7), as a letter code. -/
def mod26 (a : Int) : Letter := Fin.ofNat 26 (a % 26).toNat

/-- A letter operand: codes 0 to 25; 26 and above are not letters (00_scope.md R9). -/
def letterOperand (v : Nat) : Option Letter := if h : v < 26 then some ⟨v, h⟩ else none

/-- The operand of `EPOS`: the one-based window position 1 to 26, as the zero-based register value (30_encoding.md R72,
40_enigma_rotor.md R111). -/
def positionOperand (v : Nat) : Option (BitVec 5) := if 1 ≤ v ∧ v ≤ 26 then some (BitVec.ofNat 5 (v - 1)) else none

/-- The operand of `ERING`: a zero-based ring setting 0 to 25 (40_enigma_rotor.md R112). -/
def ringOperand (v : Nat) : Option (BitVec 5) := if v ≤ 25 then some (BitVec.ofNat 5 v) else none

/-- A wheel operand: legal values 0 to 11 (30_encoding.md R72). -/
def wheelOperand (v : Nat) : Option Wheel := if h : v < 12 then some ⟨v, h⟩ else none

/-- The position operand of `LPOS` for a wheel: in `[0, LEN[w])` (43_lorenz.md R183). -/
def wheelPositionOperand (w : Wheel) (p : Nat) : Option (BitVec 6) :=
  if p < wheelLen[w] then some (BitVec.ofNat 6 p) else none

end Sys2Proof.Machine
end

