-- ==== Sys2Proof/Machine/Ops.lean ====
section
/-! DEFINITION. The named operations over registers, tables and ports: finishing a command, taking an error, reset, taking the next input; rotor, plugboard and wheel operations. -/

namespace Sys2Proof.Machine

/-- The three outcomes of a step of this machine. -/
abbrev Result := Host.Outcome State Fault Refusal

/-! ### The ports -/

/-- Present a response (30_encoding.md R70, R74). -/
def State.respond (s : State) (st : Status) (data : BitVec 6) : State := { s with rsp := some (responseWord st data) }

/-- Replace the ENIGMA unit's registers. -/
def State.withEnigma (s : State) (e : EnigmaRegs) : State := { s with e := e }

/-- Replace the LORENZ unit's registers. -/
def State.withLorenz (s : State) (l : LorenzRegs) : State := { s with l := l }

/-- The state after the oldest input has been taken from the ports. -/
def State.takeInput (s : State) : State := { s with inputs := s.inputs.tail }

/-- Put a command word at the command port, before anything else the host will do. -/
def State.present (s : State) (c : CommandWord) : State := { s with inputs := .command c :: s.inputs }

/-- `return v` (00_scope.md R10): end the command with status `OK` and the data `v`, zero-extended (30_encoding.md R74). -/
def finish (data : Nat) (s : State) : Result := .next (s.respond .ok (BitVec.ofNat 6 data))

/-- `raise E`, the taking of an exception (00_scope.md R10, 60_exceptions.md R247): no register of either unit is
written, the response carries the status and data 0, and the device is at once ready for the next command. Nothing is
saved and no mode changes (R244), so there is no return from it (R248): the next input is taken as ever. -/
def raiseError (st : Status) (s : State) : Result := .next (s.respond st 0)

/-- A word that is not a command (30_encoding.md R75, R76, 60_exceptions.md R243). -/
def illegalCommand (_ : DecodeError) (s : State) : Result := raiseError .illegalCommand s

/-- `rst` (70_reset_and_hazards.md R270): every register of both units takes its reset value and there is no response; the
tables are not affected (R271). -/
def deviceReset (s : State) : State := { s with e := EnigmaRegs.reset, l := LorenzRegs.reset, rsp := none }

/-! ### The rotor unit (40_enigma_rotor.md) -/

/-- `NormalizedPos(s) = (e.pos[s] - e.ring[s]) mod 26` (R100). -/
def normalizedPos (e : EnigmaRegs) (s : Slot) : Letter := mod26 ((e.pos[s].toNat : Int) - (e.ring[s].toNat : Int))

/-- `Rotate(s)`: `e.pos[s] <- (e.pos[s] + 1) mod 26` (R103). -/
def rotate (e : EnigmaRegs) (s : Slot) : EnigmaRegs :=
  { e with pos := e.pos.set s (BitVec.ofNat 5 ((e.pos[s].toNat + 1) % 26)) }

/-- `Translate` of a rotor at normalised position `n` (R104). -/
def rotorTranslate (r : RotorSpec) (n x : Letter) : Letter :=
  mod26 (((wir r (mod26 ((x.val : Int) + (n.val : Int)))).val : Int) - (n.val : Int))

/-- `TranslateReverse` of a rotor at normalised position `n` (R105). -/
def rotorTranslateReverse (r : RotorSpec) (n y : Letter) : Letter :=
  mod26 (((wirInv r (mod26 ((y.val : Int) + (n.val : Int)))).val : Int) - (n.val : Int))

/-- `Reflect(x)` (R107). -/
def reflect (u : ReflSpec) (x : Letter) : Letter := u.wiring[x]

/-- Write a rotor selector (R110). -/
def selectRotor (e : EnigmaRegs) (s : Slot) (id : Nat) : EnigmaRegs :=
  { e with selv := e.selv.set s true, sel := e.sel.set s (BitVec.ofNat 5 id) }

/-- Write a shown position (R111). -/
def setShownPos (e : EnigmaRegs) (s : Slot) (p : BitVec 5) : EnigmaRegs := { e with pos := e.pos.set s p }

/-- Write a ring setting (R112). -/
def setRing (e : EnigmaRegs) (s : Slot) (r : BitVec 5) : EnigmaRegs := { e with ring := e.ring.set s r }

/-- Write the reflector selector (R113). -/
def selectReflector (e : EnigmaRegs) (id : Nat) : EnigmaRegs := { e with refv := true, ref := BitVec.ofNat 5 id }

/-! ### The plugboard (41_enigma_plugboard.md) -/

/-- `PlugTranslate(x)` (R131). -/
def plugTranslate (e : EnigmaRegs) (x : Letter) : Letter := e.plug[x].getD x

/-- An entry refuses a new partner when it already has a different one (R132). -/
def plugTakenByOther (e : EnigmaRegs) (x partner : Letter) : Bool :=
  match e.plug[x] with
  | none => false
  | some y => y != partner

/-- The two writes of `EPLUG` (R132). -/
def plugPair (e : EnigmaRegs) (a b : Letter) : EnigmaRegs := { e with plug := (e.plug.set a (some b)).set b (some a) }

/-- The writes of `EUNPLUG`: both directions of the letter's pair, or none (R133). -/
def unplugLetter (e : EnigmaRegs) (a : Letter) : EnigmaRegs :=
  match e.plug[a] with
  | none => e
  | some b => { e with plug := (e.plug.set a none).set b none }

/-! ### The Enigma machine (42_enigma_machine.md) -/

/-- The tables an `EENC` uses: the rotors of slots 0, 1, 2, the fourth rotor when `f = 1`, and the reflector (R151, R154). -/
structure Stack where
  right : RotorSpec
  centre : RotorSpec
  left : RotorSpec
  fourth : Option RotorSpec
  refl : ReflSpec
  deriving DecidableEq, Repr

/-- The tables of the selected rotors and reflector for the flag `f`; `none` when one of them has no table entry. -/
def stackFor (c : Config) (e : EnigmaRegs) (f : Bool) : Option Stack :=
  match rotorIn c e Slot.right, rotorIn c e Slot.centre, rotorIn c e Slot.left, reflectorIn c e with
  | some right, some centre, some left, some refl =>
    if f then (rotorIn c e Slot.fourth).map fun fourth => ⟨right, centre, left, some fourth, refl⟩
    else some ⟨right, centre, left, none, refl⟩
  | _, _, _, _ => none

/-- `Step()` (R153): both notch tests on the positions before any rotation, then the rotations. -/
def stepRotors (k : Stack) (e : EnigmaRegs) : EnigmaRegs :=
  let c := atNotch k.centre e Slot.centre
  let r := atNotch k.right e Slot.right
  let turned :=
    if c then rotate (rotate e Slot.left) Slot.centre
    else if r then rotate e Slot.centre
    else e
  rotate turned Slot.right

/-- The forward pass of one slot at the present positions (R104, R154). -/
def forward (r : RotorSpec) (e : EnigmaRegs) (s : Slot) (x : Letter) : Letter := rotorTranslate r (normalizedPos e s) x

/-- The reverse pass of one slot at the present positions (R105, R154). -/
def backward (r : RotorSpec) (e : EnigmaRegs) (s : Slot) (y : Letter) : Letter :=
  rotorTranslateReverse r (normalizedPos e s) y

/-- The forward pass of the fourth slot, where the path has one (R154). -/
def forwardFourth (k : Stack) (e : EnigmaRegs) (x : Letter) : Letter :=
  match k.fourth with
  | none => x
  | some r => forward r e Slot.fourth x

/-- The reverse pass of the fourth slot, where the path has one (R154). -/
def backwardFourth (k : Stack) (e : EnigmaRegs) (y : Letter) : Letter :=
  match k.fourth with
  | none => y
  | some r => backward r e Slot.fourth y

/-- `Path(x, f)` (R154), at the positions the registers hold. -/
def path (k : Stack) (e : EnigmaRegs) (x : Letter) : Letter :=
  let t := plugTranslate e x
  let t := forward k.right e Slot.right t
  let t := forward k.centre e Slot.centre t
  let t := forward k.left e Slot.left t
  let t := forwardFourth k e t
  let t := reflect k.refl t
  let t := backwardFourth k e t
  let t := backward k.left e Slot.left t
  let t := backward k.centre e Slot.centre t
  let t := backward k.right e Slot.right t
  plugTranslate e t

/-! ### The Lorenz unit (43_lorenz.md) -/

/-- `RotateWheel(w)`: `l.pos[w] <- (l.pos[w] + 1) mod LEN[w]` (R186). -/
def rotateWheel (l : LorenzRegs) (w : Wheel) : LorenzRegs :=
  { l with pos := l.pos.set w (BitVec.ofNat 6 ((l.pos[w].toNat + 1) % wheelLen[w])) }

/-- Rotate each wheel of a list, in order. -/
def rotateWheels (l : LorenzRegs) (ws : List Wheel) : LorenzRegs := ws.foldl rotateWheel l

/-- Write a wheel position (R183). -/
def setWheelPos (l : LorenzRegs) (w : Wheel) (p : BitVec 6) : LorenzRegs := { l with pos := l.pos.set w p }

/-- The source's `WheelsToByte`: five cam states, the first the most significant (20_memory.md R58, R185). -/
def wheelsToByte (b4 b3 b2 b1 b0 : Bool) : CodeUnit :=
  BitVec.ofBool b4 ++ BitVec.ofBool b3 ++ BitVec.ofBool b2 ++ BitVec.ofBool b1 ++ BitVec.ofBool b0

/-- `chiByte` (R185). -/
def chiByte (t : CamTable) (l : LorenzRegs) : CodeUnit :=
  wheelsToByte (camState t l 0) (camState t l 1) (camState t l 2) (camState t l 3) (camState t l 4)

/-- `psiByte` (R185). -/
def psiByte (t : CamTable) (l : LorenzRegs) : CodeUnit :=
  wheelsToByte (camState t l 7) (camState t l 8) (camState t l 9) (camState t l 10) (camState t l 11)

/-- `Keystream()` (R185). -/
def keystream (t : CamTable) (l : LorenzRegs) : CodeUnit := chiByte t l ^^^ psiByte t l

/-- `StepWheels()` (R188). -/
def stepWheels (c : Config) (l : LorenzRegs) : LorenzRegs :=
  let l := rotateWheels l [0, 1, 2, 3, 4]
  let l := rotateWheel l 5
  let m2Before := camState c.cams l 6
  let l := if camState c.cams l 5 then rotateWheel l 6 else l
  let m2 := match c.m2Sample with
    | .after => camState c.cams l 6
    | .before => m2Before
  if m2 then rotateWheels l [7, 8, 9, 10, 11] else l

end Sys2Proof.Machine
end

