-- ==== Sys2Proof/Machine/EnigmaMachine.lean ====
section
/-! DEFINITION. The commands of the Enigma machine (42_enigma_machine.md): `ERST`, `EENC`. -/

namespace Sys2Proof.Machine

/-- `ERST` (R150). -/
def execErst (s : State) : Result := finish 0 (s.withEnigma EnigmaRegs.reset)

/-- `EENC x, n` (R152): configuration first, then the letter, then step and path. The fault stands for states that break
10_state.md R24 or R25 (log entry 11). -/
def execEenc (f : Bool) (x : Nat) (s : State) : Result :=
  if configured s.e f then
    match letterOperand x with
    | none => raiseError .invalidInputError s
    | some x =>
      match stackFor s.cfg s.e f with
      | none => .fault .absentTableEntry
      | some k => finish (path k (stepRotors k s.e) x).val (s.withEnigma (stepRotors k s.e))
  else raiseError .configurationError s

end Sys2Proof.Machine
end

