-- ==== Sys2Proof/Machine/EnigmaPlugboard.lean ====
section
/-! DEFINITION. The commands of the plugboard (41_enigma_plugboard.md): `EPLUG`, `EUNPLUG`. -/

namespace Sys2Proof.Machine

/-- `EPLUG a, b` (R132): the four tests, then both writes. -/
def execEplug (a b : Nat) (s : State) : Result :=
  match letterOperand a, letterOperand b with
  | some a, some b =>
    if a = b then raiseError .configurationError s
    else if plugTakenByOther s.e a b then raiseError .configurationError s
    else if plugTakenByOther s.e b a then raiseError .configurationError s
    else finish 0 (s.withEnigma (plugPair s.e a b))
  | _, _ => raiseError .configurationError s

/-- `EUNPLUG a` (R133). -/
def execEunplug (a : Nat) (s : State) : Result :=
  match letterOperand a with
  | none => raiseError .configurationError s
  | some a => finish 0 (s.withEnigma (unplugLetter s.e a))

end Sys2Proof.Machine
end

