-- ==== Sys2Proof/Machine/EnigmaRotor.lean ====
section
/-! DEFINITION. The commands of the rotor unit (40_enigma_rotor.md): `ESEL`, `EPOS`, `ERING`, `EREFL`, `ERDPOS`. -/

namespace Sys2Proof.Machine

/-- `ESEL slot, id` (R110). -/
def execEsel (slot : Slot) (id : Nat) (s : State) : Result :=
  match rotorRom s.cfg id with
  | none => raiseError .configurationError s
  | some _ => finish 0 (s.withEnigma (selectRotor s.e slot id))

/-- `EPOS slot, pos` (R111). -/
def execEpos (slot : Slot) (pos : Nat) (s : State) : Result :=
  match positionOperand pos with
  | none => raiseError .configurationError s
  | some p => finish 0 (s.withEnigma (setShownPos s.e slot p))

/-- `ERING slot, ring` (R112). -/
def execEring (slot : Slot) (ring : Nat) (s : State) : Result :=
  match ringOperand ring with
  | none => raiseError .configurationError s
  | some r => finish 0 (s.withEnigma (setRing s.e slot r))

/-- `EREFL id` (R113). -/
def execErefl (id : Nat) (s : State) : Result :=
  match reflRom s.cfg id with
  | none => raiseError .configurationError s
  | some _ => finish 0 (s.withEnigma (selectReflector s.e id))

/-- `ERDPOS slot` (R114): the stored, zero-based register. -/
def execErdpos (slot : Slot) (s : State) : Result := finish s.e.pos[slot].toNat s

end Sys2Proof.Machine
end

