-- ==== Sys2Proof/Machine/Lorenz.lean ====
section
/-! DEFINITION. The commands of the LORENZ unit (43_lorenz.md): `LRST`, `LPOS`, `LENC`, `LRDPOS`. -/

namespace Sys2Proof.Machine

/-- `LRST` (R182). -/
def execLrst (s : State) : Result := finish 0 (s.withLorenz LorenzRegs.reset)

/-- `LPOS w, p` (R183). -/
def execLpos (wheel p : Nat) (s : State) : Result :=
  match wheelOperand wheel with
  | none => raiseError .configurationError s
  | some w =>
    match wheelPositionOperand w p with
    | none => raiseError .configurationError s
    | some p => finish 0 (s.withLorenz (setWheelPos s.l w p))

/-- `LENC u` (R184): the keystream at the present positions, then the step. The fault stands for states that break
10_state.md R29 (log entry 11). -/
def execLenc (u : CodeUnit) (s : State) : Result :=
  if wheelsInRange s.l then
    finish (u ^^^ keystream s.cfg.cams s.l).toNat (s.withLorenz (stepWheels s.cfg s.l))
  else .fault .camIndexOutOfRange

/-- `LRDPOS w` (R189). -/
def execLrdpos (wheel : Nat) (s : State) : Result :=
  match wheelOperand wheel with
  | none => raiseError .configurationError s
  | some w => finish s.l.pos[w].toNat s

end Sys2Proof.Machine
end

