-- ==== Sys2Proof/Machine/Dispatch.lean ====
section
/-! DEFINITION. The dispatch: one arm for each command, each one call of its meaning. -/

namespace Sys2Proof.Machine

def exec (i : Instr) (s : State) : Host.Outcome State Fault Refusal :=
  match i with
  | .erst => Sys2Proof.Machine.execErst s
  | .esel slot id => Sys2Proof.Machine.execEsel slot id s
  | .epos slot pos => Sys2Proof.Machine.execEpos slot pos s
  | .ering slot ring => Sys2Proof.Machine.execEring slot ring s
  | .erefl id => Sys2Proof.Machine.execErefl id s
  | .eplug a b => Sys2Proof.Machine.execEplug a b s
  | .eunplug a => Sys2Proof.Machine.execEunplug a s
  | .eenc f x => Sys2Proof.Machine.execEenc f x s
  | .erdpos slot => Sys2Proof.Machine.execErdpos slot s
  | .lrst => Sys2Proof.Machine.execLrst s
  | .lpos wheel p => Sys2Proof.Machine.execLpos wheel p s
  | .lenc u => Sys2Proof.Machine.execLenc u s
  | .lrdpos wheel => Sys2Proof.Machine.execLrdpos wheel s

end Sys2Proof.Machine
end

