-- ==== Sys2Proof/Machine/Step.lean ====
section
/-! DEFINITION. One step of the machine: take the host's next input and perform it whole (30_encoding.md R70). -/

namespace Sys2Proof.Machine

/-- One step. A command word is decoded and performed, or answered with `IllegalCommand` (30_encoding.md R77); `rst` puts
both units into their reset state, and abandons the command it cuts (70_reset_and_hazards.md R270); with no input the
device does nothing (30_encoding.md R70). -/
def step (s : State) : Host.Outcome State Fault Refusal :=
  match s.inputs with
  | [] => .next s
  | .command c :: _ =>
    match decode c with
    | .ok i => exec i s.takeInput
    | .error why => illegalCommand why s.takeInput
  | .rst :: _ => .next (deviceReset s.takeInput)
  | .commandCutByRst _ :: _ => .next (deviceReset s.takeInput)

/-- `s` with that instruction's word at the command port, so that the next step takes exactly it. -/
def State.withFetchWord (s : State) (nbits w : Nat) : State := s.present (tableWord nbits w)

end Sys2Proof.Machine
end

