-- ==== Sys2Proof/Machine/Ita2.lean ====
section
/-! DEFINITION. The ITA2 codec (44_ita2_companion.md), a companion outside the device: pure functions over tables that are parameters. It has no command, no register and no place in State. -/

namespace Sys2Proof.Machine

/-- The shift state (R221), local to a call (92_eei_decisions.md D34). -/
inductive ShiftState
  | letterShift
  | figureShift
  deriving DecidableEq, Repr

/-- A codec error (R227). -/
inductive CodecError
  /-- `Encode` met a character of neither table (R224). -/
  | invalidCharacter
  /-- `Decode` met a code that the table of the current state does not map (R225). -/
  | invalidCode
  deriving DecidableEq, Repr

/-- The character a table gives a code, if any (R222). -/
def charOf (table : Vector (Option Char) 32) (c : CodeUnit) : Option Char := table[c.toFin]

/-- All 32 codes, in order (00_scope.md R4, NCODE). -/
def allCodes : List CodeUnit := (List.range 32).map (BitVec.ofNat 5)

/-- No character stands at two codes (R222). -/
def tableInjective (table : Vector (Option Char) 32) : Bool :=
  allCodes.all fun c => allCodes.all fun d => (charOf table c).isNone || charOf table c != charOf table d || c == d

/-- The code at which a table holds a character, if any. -/
def codeIn (table : Vector (Option Char) 32) (ch : Char) : Option CodeUnit :=
  allCodes.find? fun c => charOf table c == some ch

/-- A character is in the range of a table. -/
def tableHolds (table : Vector (Option Char) 32) (ch : Char) : Bool := (codeIn table ch).isSome

/-- `A`..`Z`. -/
def upperCase : List Char := (List.range 26).map fun k => Char.ofNat (65 + k)

/-- `0`..`9`. -/
def digits : List Char := (List.range 10).map fun k => Char.ofNat (48 + k)

/-- What R222 reads off the source's round-trip vector: the letter table contains `A`..`Z` and no digit, the figure table
contains `0`..`9`. -/
def ita2Alphabet (ltrs figs : Vector (Option Char) 32) : Bool :=
  upperCase.all (tableHolds ltrs) && digits.all fun ch => tableHolds figs ch && !tableHolds ltrs ch

/-- What R222 asks of the codes: injective tables, two distinct shift codes, neither in the domain of a table. -/
def ita2Constraints (ltrs figs : Vector (Option Char) 32) (ltrsCode figsCode : CodeUnit) : Bool :=
  tableInjective ltrs && tableInjective figs && ltrsCode != figsCode &&
    (charOf ltrs ltrsCode).isNone && (charOf ltrs figsCode).isNone &&
    (charOf figs ltrsCode).isNone && (charOf figs figsCode).isNone

/-- `ITA2_LTRS`, `ITA2_FIGS`, `ITA2_LTRS_CODE`, `ITA2_FIGS_CODE` (00_scope.md R4), with R222's constraints carried by
the data. -/
structure Ita2Tables where
  ltrs : Vector (Option Char) 32
  figs : Vector (Option Char) 32
  ltrsCode : CodeUnit
  figsCode : CodeUnit
  constraints : ita2Constraints ltrs figs ltrsCode figsCode = true
  alphabet : ita2Alphabet ltrs figs = true
  deriving DecidableEq, Repr

/-- The shift state and the code a character needs: the letter table first, else the figure table (R224). -/
def codeFor (t : Ita2Tables) (ch : Char) : Option (ShiftState × CodeUnit) :=
  match codeIn t.ltrs ch with
  | some c => some (.letterShift, c)
  | none => (codeIn t.figs ch).map fun c => (.figureShift, c)

/-- A character of the supported set: in the range of one of the tables (R224). -/
def supported (t : Ita2Tables) (ch : Char) : Bool := (codeFor t ch).isSome

/-- The code that shifts to a state (R224). -/
def shiftCode (t : Ita2Tables) : ShiftState → CodeUnit
  | .letterShift => t.ltrsCode
  | .figureShift => t.figsCode

/-- The emission loop of `Encode` (R224), from a shift state. -/
def emitCodes (t : Ita2Tables) : ShiftState → List Char → List CodeUnit
  | _, [] => []
  | state, ch :: text =>
    match codeFor t ch with
    | none => emitCodes t state text
    | some (need, c) =>
      if need = state then c :: emitCodes t state text
      else shiftCode t need :: c :: emitCodes t need text

/-- `Encode(text)` (R224): the whole text is checked before anything is emitted. -/
def ita2Encode (t : Ita2Tables) (text : List Char) : Except CodecError (List CodeUnit) :=
  if text.all (supported t) then .ok (emitCodes t .letterShift text) else .error .invalidCharacter

/-- An element of decoded text: a character, or the token of a shift code passed through (R225). -/
inductive Token
  | char (ch : Char)
  | shift (c : CodeUnit)
  deriving DecidableEq, Repr

/-- The table of a shift state (R225). -/
def tableOf (t : Ita2Tables) : ShiftState → Vector (Option Char) 32
  | .letterShift => t.ltrs
  | .figureShift => t.figs

/-- The loop of `Decode` (R225), from a shift state; `pass` is `ITA2_PASS_SHIFTS`. -/
def decodeFrom (t : Ita2Tables) (pass : Bool) : ShiftState → List CodeUnit → Except CodecError (List Token)
  | _, [] => .ok []
  | state, c :: codes =>
    if c = t.figsCode ∨ c = t.ltrsCode then
      match decodeFrom t pass (if c = t.figsCode then .figureShift else .letterShift) codes with
      | .error why => .error why
      | .ok rest => .ok (if pass then .shift c :: rest else rest)
    else
      match charOf (tableOf t state) c with
      | none => .error .invalidCode
      | some ch =>
        match decodeFrom t pass state codes with
        | .error why => .error why
        | .ok rest => .ok (.char ch :: rest)

/-- `Decode(codes)` (R225): starts in letter shift; a failing call returns nothing. -/
def ita2Decode (t : Ita2Tables) (pass : Bool) (codes : List CodeUnit) : Except CodecError (List Token) :=
  decodeFrom t pass .letterShift codes

/-- The characters of decoded text, the shift tokens deleted (R226). -/
def charsOf : List Token → List Char
  | [] => []
  | .char ch :: rest => ch :: charsOf rest
  | .shift _ :: rest => charsOf rest

end Sys2Proof.Machine
end

