-- ==== Sys2Proof/Machine/HostSide.lean ====
section
/-! DEFINITION. The host's side of the command port: sending words and reading responses (00_scope.md R11), the pseudo-instructions (30_encoding.md R80), and the message operations of the source (42_enigma_machine.md R160, 43_lorenz.md R193). None of it is state or a command of the device. -/

namespace Sys2Proof.Machine

/-- One command and its response, the function of 00_scope.md R11: present the word, let the device perform it, read the
response. -/
def send (c : CommandWord) (s : State) : Option (State × ResponseWord) :=
  match step (s.present c) with
  | .next t => t.rsp.map fun r => (t, r)
  | .fault _ => none
  | .refused _ => none

/-- A list of command words sent in order, with the responses in order (10_state.md R30). -/
def transact : List CommandWord → State → Option (State × List ResponseWord)
  | [], s => some (s, [])
  | c :: cs, s =>
    match send c s with
    | none => none
    | some (t, r) => (transact cs t).map fun out => (out.1, r :: out.2)

/-- A pseudo-instruction (30_encoding.md R80): a sequence of commands the host sends. -/
inductive Pseudo
  /-- `ECFG slot, id, pos, ring`. -/
  | ecfg (slot : Slot) (id pos ring : Nat)
  /-- `EPLUGS "A:B C:D ..."`, the pairs as letter codes. -/
  | eplugs (pairs : List (Nat × Nat))
  /-- `EMSG "TEXT", n`; `f` is true when `n` is 4. -/
  | emsg (text : List Char) (f : Bool)
  /-- `LLOAD p0, p1, ..., p11`. -/
  | lload (positions : Vector Nat 12)
  /-- `LKEY`. -/
  | lkey
  /-- `LMSG u0, u1, ...`. -/
  | lmsg (units : List CodeUnit)
  /-- `RESET`. -/
  | reset
  deriving DecidableEq, Repr

/-- The code of a character `A`..`Z` (00_scope.md R9); no other character is a letter. -/
def letterOfChar (ch : Char) : Option Letter :=
  if h : 65 ≤ ch.toNat ∧ ch.toNat < 91 then some ⟨ch.toNat - 65, by omega⟩ else none

/-- The codes of a text, when every character of it is `A`..`Z`. -/
def lettersOfText : List Char → Option (List Letter)
  | [] => some []
  | ch :: text =>
    match letterOfChar ch, lettersOfText text with
    | some x, some xs => some (x :: xs)
    | _, _ => none

/-- The expansion of a pseudo-instruction (30_encoding.md R80). `EMSG` of a text with a character outside `A`..`Z` is
reported as InvalidInputError and nothing is sent. -/
def expandPseudo : Pseudo → Except Status (List Instr)
  | .ecfg slot id pos ring => .ok [.esel slot id, .epos slot pos, .ering slot ring]
  | .eplugs pairs => .ok (pairs.map fun p => .eplug p.1 p.2)
  | .emsg text f =>
    match lettersOfText text with
    | none => .error .invalidInputError
    | some xs => .ok (xs.map fun x => .eenc f x.val)
  | .lload positions => .ok (positions.toList.mapIdx fun w p => .lpos w p)
  | .lkey => .ok [.lenc 0]
  | .lmsg units => .ok (units.map .lenc)
  | .reset => .ok [.erst, .lrst]

/-- Send commands in order, stopping after the first response that is an error; the commands already performed stay
performed (30_encoding.md R80). DESIGN CHOICE (log entry 23): an operand too wide for its field, of which R80 says
nothing, is sent with the low bits that fit. -/
def sendUntilError : List Instr → State → Option (State × List ResponseWord)
  | [], s => some (s, [])
  | i :: is, s =>
    match send (encode i) s with
    | none => none
    | some (t, r) =>
      if rspStatus r = 0 then (sendUntilError is t).map fun out => (out.1, r :: out.2)
      else some (t, [r])

/-- Why a message operation fails: with an error class of the source, or because the state breaks 10_state.md R24 or R25
(log entry 11). -/
inductive MessageFailure
  | status (st : Status)
  | stopped (why : Fault)
  deriving DecidableEq, Repr

/-- The codes of a text of 5-bit codes, when every one of them is a letter. -/
def lettersOfCodes : List Nat → Option (List Letter)
  | [] => some []
  | v :: text =>
    match letterOperand v, lettersOfCodes text with
    | some x, some xs => some (x :: xs)
    | _, _ => none

/-- The loop of 42_enigma_machine.md R160: step, then the path, for each letter from left to right. -/
def encipherLetters (k : Stack) : List Letter → EnigmaRegs → List Letter × EnigmaRegs
  | [], e => ([], e)
  | x :: xs, e =>
    let stepped := stepRotors k e
    let rest := encipherLetters k xs stepped
    (path k stepped x :: rest.1, rest.2)

/-- `Encrypt(text, f)`, the source's message operation (42_enigma_machine.md R160): everything is checked before any
state changes. -/
def encryptMessage (c : Config) (f : Bool) (text : List Nat) (e : EnigmaRegs) :
    Except MessageFailure (List Letter × EnigmaRegs) :=
  if configured e f then
    match lettersOfCodes text with
    | none => .error (.status .invalidInputError)
    | some xs =>
      match stackFor c e f with
      | none => .error (.stopped .absentTableEntry)
      | some k => .ok (encipherLetters k xs e)
  else .error (.status .configurationError)

/-- `LorenzEncrypt(codes)` (43_lorenz.md R193): R184 for each unit from left to right; it cannot fail. -/
def lorenzEncrypt (c : Config) : List CodeUnit → LorenzRegs → List CodeUnit × LorenzRegs
  | [], l => ([], l)
  | u :: us, l =>
    let rest := lorenzEncrypt c us (stepWheels c l)
    ((u ^^^ keystream c.cams l) :: rest.1, rest.2)

end Sys2Proof.Machine
end

