-- ==== Sys2Proof/Safety.lean ====
section
/-! DEFINITION. What counts as a safe state and a safe step: the invariants the spec states (10_state.md R23, R24, R25, R27, R29), what a command leaves alone, and the causes of an error. -/

namespace Sys2Proof.Machine

/-- Every shown position and ring setting is in `[0,26)` (10_state.md R23). -/
abbrev PositionsNormalised (e : EnigmaRegs) : Prop := ∀ s : Slot, e.pos[s].toNat < 26 ∧ e.ring[s].toNat < 26

/-- A selected slot's id has a table entry, and so has a selected reflector's (10_state.md R24, R25). -/
abbrev SelectionsExist (c : Config) (e : EnigmaRegs) : Prop :=
  (∀ s : Slot, e.selv[s] = true → (rotorRom c e.sel[s].toNat).isSome = true) ∧
    (e.refv = true → (reflRom c e.ref.toNat).isSome = true)

/-- The plugboard is symmetric and plugs no letter to itself (10_state.md R27). -/
abbrev PlugboardPaired (e : EnigmaRegs) : Prop :=
  ∀ a b : Letter, e.plug[a] = some b → e.plug[b] = some a ∧ a ≠ b

/-- Every wheel position is in `[0, LEN[w])` (10_state.md R29). -/
abbrev WheelsNormalised (l : LorenzRegs) : Prop := ∀ w : Wheel, l.pos[w].toNat < wheelLen[w]

/-- The invariants the spec states at every command boundary. -/
abbrev State.Inv (s : State) : Prop :=
  PositionsNormalised s.e ∧ SelectionsExist s.cfg s.e ∧ PlugboardPaired s.e ∧ WheelsNormalised s.l

/-- A step is safe when it ends in a next state. -/
abbrev Completes (r : Result) : Prop := ∃ t, r = .next t

/-- Everything outside the ENIGMA registers and the response port is as before. -/
abbrev OnlyEnigmaChanged (s t : State) : Prop := t.l = s.l ∧ t.cfg = s.cfg ∧ t.inputs = s.inputs

/-- Everything outside the LORENZ registers and the response port is as before. -/
abbrev OnlyLorenzChanged (s t : State) : Prop := t.e = s.e ∧ t.cfg = s.cfg ∧ t.inputs = s.inputs

/-- The registers of both units and the tables are the same (10_state.md R20). -/
abbrev SameRegisters (s t : State) : Prop := t.e = s.e ∧ t.l = s.l ∧ t.cfg = s.cfg

/-- A command of the ENIGMA unit (10_state.md R20, 30_encoding.md R73). -/
def isEnigmaCommand : Instr → Bool
  | .erst | .esel _ _ | .epos _ _ | .ering _ _ | .erefl _ | .eplug _ _ | .eunplug _ | .eenc _ _ | .erdpos _ => true
  | .lrst | .lpos _ _ | .lenc _ | .lrdpos _ => false

/-- The table of causes of `ConfigurationError` (60_exceptions.md R241), a command's line or `False`. -/
def configurationErrorCause (i : Instr) (s : State) : Prop :=
  match i with
  | .erst => False
  | .esel _ id => rotorRom s.cfg id = none
  | .epos _ pos => pos = 0 ∨ pos > 26
  | .ering _ ring => ring > 25
  | .erefl id => reflRom s.cfg id = none
  | .eplug a b =>
    (a > 25 ∨ b > 25) ∨
      (∃ x y : Letter, x.val = a ∧ y.val = b ∧
        ((∃ z, s.e.plug[x] = some z ∧ z ≠ y) ∨ (∃ z, s.e.plug[y] = some z ∧ z ≠ x))) ∨
      a = b
  | .eunplug a => a > 25
  | .eenc f _ =>
    s.e.selv[Slot.right] = false ∨ s.e.selv[Slot.centre] = false ∨ s.e.selv[Slot.left] = false ∨ s.e.refv = false ∨
      (f = true ∧ s.e.selv[Slot.fourth] = false)
  | .erdpos _ => False
  | .lrst => False
  | .lpos wheel p => wheel > 11 ∨ ∃ w : Wheel, w.val = wheel ∧ p ≥ wheelLen[w]
  | .lenc _ => False
  | .lrdpos wheel => wheel > 11

/-- A configuration register of the ENIGMA unit that one command writes (40_enigma_rotor.md R115). -/
inductive ConfigRegister
  | selector (slot : Slot)
  | position (slot : Slot)
  | ring (slot : Slot)
  | reflector
  deriving DecidableEq, Repr

/-- The register a configuration command writes (40_enigma_rotor.md R115); `none` for every other command. -/
def configRegisterOf : Instr → Option ConfigRegister
  | .esel slot _ => some (.selector slot)
  | .epos slot _ => some (.position slot)
  | .ering slot _ => some (.ring slot)
  | .erefl _ => some .reflector
  | .erst | .eplug _ _ | .eunplug _ | .eenc _ _ | .erdpos _ | .lrst | .lpos _ _ | .lenc _ | .lrdpos _ => none

end Sys2Proof.Machine
end

