-- ==== Sys2Proof/Certificates/Slice0/Obligations.lean ====
section
/-! DEFINITION. The statements for the provers. Each is a Prop; none is proved here. -/

open Sys2Proof Sys2Proof.Machine

/-! ### Encoding -/

/-- 30_encoding.md R71, R73: the word of every well-formed command, as a number, field by field. -/
def Obligations.EncodingLayout : Prop :=
  ∀ i : Instr, i.WellFormed →
    (encode i).toNat =
      match i with
      | .erst => 0x1000
      | .esel slot id => 0x2000 + 1024 * slot.val + id
      | .epos slot pos => 0x3000 + 1024 * slot.val + pos
      | .ering slot ring => 0x4000 + 1024 * slot.val + ring
      | .erefl id => 0x5000 + id
      | .eplug a b => 0x6000 + 32 * a + b
      | .eunplug a => 0x7000 + a
      | .eenc f x => 0x8000 + (if f then 32 else 0) + x
      | .erdpos slot => 0x9000 + 1024 * slot.val
      | .lrst => 0xA000
      | .lpos wheel p => 0xB000 + 256 * wheel + p
      | .lenc u => 0xC000 + u.toNat
      | .lrdpos wheel => 0xD000 + 256 * wheel

/-- Decoding the word of a well-formed command gives that command back, with every operand at every value its field
admits (30_encoding.md R71 to R73). -/
def Obligations.DecodeEncodeRoundTrip : Prop :=
  ∀ i : Instr, i.WellFormed → decode (encode i) = .ok i

/-- "No field is ignored" (30_encoding.md R76): a word that decodes is exactly the word of its command, and that command
is well formed. -/
def Obligations.EncodeDecodeRoundTrip : Prop :=
  ∀ (c : CommandWord) (i : Instr), decode c = .ok i → encode i = c ∧ i.WellFormed

/-- 30_encoding.md R73: the opcode map is the table the spec prints; a word is the command of a row exactly when
`(c and mask) = match`; no word matches two rows; and the opcodes 0x0, 0xE and 0xF are reserved. -/
def Obligations.MaskAndMatchDecideTheCommand : Prop :=
  (opcodeRows.map fun r => (r.mnemonic, r.pattern.toNat, r.mask.toNat)) =
    [("ERST", 0x1000, 0xFFFF), ("ESEL", 0x2000, 0xF3E0), ("EPOS", 0x3000, 0xF3E0), ("ERING", 0x4000, 0xF3E0),
      ("EREFL", 0x5000, 0xFFE0), ("EPLUG", 0x6000, 0xFC00), ("EUNPLUG", 0x7000, 0xFFE0), ("EENC", 0x8000, 0xFFC0),
      ("ERDPOS", 0x9000, 0xF3FF), ("LRST", 0xA000, 0xFFFF), ("LPOS", 0xB000, 0xF0C0), ("LENC", 0xC000, 0xFFE0),
      ("LRDPOS", 0xD000, 0xF0FF)] ∧
  (∀ (c : CommandWord) (r : OpcodeRow), r ∈ opcodeRows →
    ((c &&& r.mask = r.pattern) ↔ ∃ i, decode c = .ok i ∧ rowOf i = r)) ∧
  (opcodeRows.Pairwise fun r q => ∀ c : CommandWord, c &&& r.mask = r.pattern → c &&& q.mask ≠ q.pattern) ∧
  (∀ c : CommandWord, (c.toNat / 4096 = 0x0 ∨ c.toNat / 4096 = 0xE ∨ c.toNat / 4096 = 0xF) ↔
    decode c = .error .reservedOpcode)

/-- 30_encoding.md R75, R76: a word with a reserved opcode, and a word with one of the thirteen opcodes that does not
match its row, answers `IllegalCommand` (0xC0), takes only the input, and changes no register; and they are all the
words that do not decode. -/
def Obligations.NonCommandsAnswerIllegalCommand : Prop :=
  ∀ (s : State) (c : CommandWord) (rest : List HostEvent), s.inputs = .command c :: rest →
    ((c.toNat / 4096 = 0x0 ∨ c.toNat / 4096 = 0xE ∨ c.toNat / 4096 = 0xF ∨
        ∃ r ∈ opcodeRows, r.pattern.toNat / 4096 = c.toNat / 4096 ∧ c &&& r.mask ≠ r.pattern) ↔
      ¬ ∃ i, decode c = .ok i) ∧
    ((¬ ∃ i, decode c = .ok i) →
      ∃ t, step s = .next t ∧ SameRegisters s t ∧ t.inputs = rest ∧ t.rsp = some 0xC0)

/-- Words written out from 30_encoding.md section 9 decode to the commands it writes beside them. -/
def Obligations.WorkedEncodingsDecode : Prop :=
  decode 0x1000 = .ok .erst ∧
  decode 0x2802 = .ok (.esel Slot.left 2) ∧
  decode 0x3011 = .ok (.epos Slot.right 17) ∧
  decode 0x4806 = .ok (.ering Slot.left 6) ∧
  decode 0x5000 = .ok (.erefl 0) ∧
  decode 0x6253 = .ok (.eplug 18 19) ∧
  decode 0x7012 = .ok (.eunplug 18) ∧
  decode 0x8030 = .ok (.eenc true 16) ∧
  decode 0x9800 = .ok (.erdpos Slot.left) ∧
  decode 0xA000 = .ok .lrst ∧
  decode 0xB53C = .ok (.lpos 5 60) ∧
  decode 0xC013 = .ok (.lenc 19) ∧
  decode 0xDB00 = .ok (.lrdpos 11)

/-- 30_encoding.md R74: the response word holds the status number in bits 7:6 and the data in bits 5:0. -/
def Obligations.ResponseLayout : Prop :=
  ∀ (st : Status) (d : BitVec 6),
    (responseWord st d).toNat =
      64 * (match st with | .ok => 0 | .configurationError => 1 | .invalidInputError => 2 | .illegalCommand => 3) +
        d.toNat

/-! ### The step -/

/-- A step runs the decoded command: with the word of a well-formed command at the port, the step is that command's
meaning at the state from which the word has been taken. -/
def Obligations.StepRunsTheDecodedCommand : Prop :=
  ∀ (s : State) (i : Instr) (rest : List HostEvent), i.WellFormed → s.inputs = .command (encode i) :: rest →
    step s = exec i { s with inputs := rest }

/-- 30_encoding.md R70: with no command word and no `rst`, the device does nothing on its own. That it is one step on an
empty list of inputs, and that the last response stays at the port meanwhile, is the model's own choice (log entries 6
and 7). -/
def Obligations.NoInputNoChange : Prop :=
  ∀ s : State, s.inputs = [] → step s = .next s

/-- Every command word, legal or not, is performed whole and answered by one response, and the device is ready for the
next input (30_encoding.md R70, R74). -/
def Obligations.EveryWordIsAnswered : Prop :=
  ∀ (s : State) (c : CommandWord) (rest : List HostEvent), s.Inv → s.inputs = .command c :: rest →
    ∃ t r, step s = .next t ∧ t.rsp = some r ∧ t.inputs = rest

/-- 60_exceptions.md R241, R248: in a state that meets the spec's invariants no step stops the machine, whatever the
host does: the model's two faults (log entry 11) are never reached from one. -/
def Obligations.DeviceNeverStops : Prop :=
  ∀ s : State, s.Inv → ∃ t, step s = .next t

/-- The invariants of 10_state.md R23, R24, R25, R27, R29 are kept by every step. -/
def Obligations.StepKeepsInvariants : Prop :=
  ∀ s t : State, s.Inv → step s = .next t → t.Inv

/-- The invariants hold at reset. -/
def Obligations.ResetMeetsInvariants : Prop := State.reset.Inv

/-- 20_memory.md R51: no step changes the tables, and a step takes at most the oldest input. -/
def Obligations.TablesNeverChange : Prop :=
  ∀ s t : State, step s = .next t → t.cfg = s.cfg ∧ t.inputs = s.inputs.tail

/-! ### Reset -/

/-- The reset value of every register (10_state.md section 7, the spec's own choice D6, D7). The ports hold nothing at
reset, which is the model's own choice (log entries 6, 7). -/
def Obligations.ResetValues : Prop :=
  (∀ k : Slot, State.reset.e.pos[k] = 0 ∧ State.reset.e.ring[k] = 0 ∧ State.reset.e.selv[k] = false ∧
    State.reset.e.sel[k] = 0) ∧
  State.reset.e.refv = false ∧ State.reset.e.ref = 0 ∧
  (∀ x : Letter, State.reset.e.plug[x] = none) ∧
  (∀ w : Wheel, State.reset.l.pos[w] = 0) ∧
  State.reset.inputs = [] ∧ State.reset.rsp = none

/-- 70_reset_and_hazards.md R270: `rst`, between commands or during one, puts every register of both units into its
reset value and gives no response; the registers are then those that `ERST` and `LRST` leave. R270 speaks of no response for the abandoned command only: that
`rst` between commands clears the last response too is the model's own choice (log entry 7), and the two kinds of `rst`
event are its reading (log entry 8, DEDUCED). -/
def Obligations.RstGivesTheResetState : Prop :=
  ∀ (s : State) (rest : List HostEvent),
    (s.inputs = .rst :: rest ∨ ∃ c, s.inputs = .commandCutByRst c :: rest) →
    ∃ t u v, step s = .next t ∧
      (∀ k : Slot, t.e.selv[k] = false ∧ t.e.sel[k] = 0 ∧ t.e.pos[k] = 0 ∧ t.e.ring[k] = 0) ∧
      t.e.refv = false ∧ t.e.ref = 0 ∧ (∀ x : Letter, t.e.plug[x] = none) ∧ (∀ w : Wheel, t.l.pos[w] = 0) ∧
      t.rsp = none ∧ t.cfg = s.cfg ∧ t.inputs = rest ∧
      exec .erst s = .next u ∧ exec .lrst u = .next v ∧ SameRegisters t v

/-- 42_enigma_machine.md R150: `ERST`, the word 0x1000, puts the ENIGMA registers at their reset values and touches
nothing else; the unit is then unconfigured, and every `EENC` answers ConfigurationError. -/
def Obligations.ErstResetsTheEnigmaUnit : Prop :=
  encode .erst = 0x1000 ∧
  ∀ s : State, ∃ t, exec .erst s = .next t ∧
    (∀ k : Slot, t.e.selv[k] = false ∧ t.e.sel[k] = 0 ∧ t.e.pos[k] = 0 ∧ t.e.ring[k] = 0) ∧
    t.e.refv = false ∧ t.e.ref = 0 ∧ (∀ x : Letter, t.e.plug[x] = none) ∧
    t.rsp = some (responseWord .ok 0) ∧ OnlyEnigmaChanged s t ∧
    ∀ (f : Bool) (x : Nat), ∃ u, exec (.eenc f x) t = .next u ∧ u.rsp = some (responseWord .configurationError 0)

/-- 43_lorenz.md R182: `LRST`, the word 0xA000, puts every wheel at 0 and touches nothing else; the unit is usable at
once. -/
def Obligations.LrstResetsTheWheels : Prop :=
  encode .lrst = 0xA000 ∧
  ∀ s : State, ∃ t, exec .lrst s = .next t ∧
    (∀ w : Wheel, t.l.pos[w] = 0) ∧ t.rsp = some (responseWord .ok 0) ∧ OnlyLorenzChanged s t ∧
    ∀ u : CodeUnit, ∃ v d, exec (.lenc u) t = .next v ∧ v.rsp = some (responseWord .ok d)

/-! ### The rotor unit -/

/-- 40_enigma_rotor.md R110: `ESEL` (format S, op 0x2) of a present id writes the selector of its slot and nothing else,
whatever the slot and whatever the other slots hold; `ESEL` of an absent id answers ConfigurationError and writes
nothing; and no command clears a selection but `ERST`. -/
def Obligations.EselSelectsARotor : Prop :=
  ∀ (s : State) (slot : Slot) (id : Nat),
    encode (.esel slot id) = formatS 0x2 (BitVec.ofFin slot) (BitVec.ofNat 5 id) ∧
    ((rotorRom s.cfg id).isSome = true →
      ∃ t, exec (.esel slot id) s = .next t ∧
        t.e.selv[slot] = true ∧ t.e.sel[slot].toNat = id ∧
        (∀ k : Slot, k ≠ slot → t.e.selv[k] = s.e.selv[k] ∧ t.e.sel[k] = s.e.sel[k]) ∧
        (∀ k : Slot, t.e.pos[k] = s.e.pos[k] ∧ t.e.ring[k] = s.e.ring[k]) ∧
        t.e.refv = s.e.refv ∧ t.e.ref = s.e.ref ∧ (∀ x : Letter, t.e.plug[x] = s.e.plug[x]) ∧
        t.rsp = some (responseWord .ok 0) ∧ OnlyEnigmaChanged s t) ∧
    (rotorRom s.cfg id = none →
      ∃ t, exec (.esel slot id) s = .next t ∧ SameRegisters s t ∧
        t.rsp = some (responseWord .configurationError 0) ∧ t.inputs = s.inputs) ∧
    (∀ (i : Instr) (t : State) (k : Slot), exec i s = .next t → s.e.selv[k] = true → t.e.selv[k] = false → i = .erst)

/-- 40_enigma_rotor.md R111: `EPOS` (format S, op 0x3) of a position 1 to 26 stores it less one in its slot and nothing
else, whether or not the slot holds a rotor; any other operand answers ConfigurationError and writes nothing. -/
def Obligations.EposSetsTheShownPosition : Prop :=
  ∀ (s : State) (slot : Slot) (pos : Nat),
    encode (.epos slot pos) = formatS 0x3 (BitVec.ofFin slot) (BitVec.ofNat 5 pos) ∧
    (1 ≤ pos ∧ pos ≤ 26 →
      ∃ t, exec (.epos slot pos) s = .next t ∧
        t.e.pos[slot].toNat = pos - 1 ∧
        (∀ k : Slot, k ≠ slot → t.e.pos[k] = s.e.pos[k]) ∧
        (∀ k : Slot, t.e.ring[k] = s.e.ring[k] ∧ t.e.selv[k] = s.e.selv[k] ∧ t.e.sel[k] = s.e.sel[k]) ∧
        t.e.refv = s.e.refv ∧ t.e.ref = s.e.ref ∧ (∀ x : Letter, t.e.plug[x] = s.e.plug[x]) ∧
        t.rsp = some (responseWord .ok 0) ∧ OnlyEnigmaChanged s t) ∧
    (pos = 0 ∨ 27 ≤ pos →
      ∃ t, exec (.epos slot pos) s = .next t ∧ SameRegisters s t ∧
        t.rsp = some (responseWord .configurationError 0) ∧ t.inputs = s.inputs)

/-- 40_enigma_rotor.md R112: `ERING` (format S, op 0x4) of 0 to 25 stores the ring setting of its slot and nothing else:
it moves the normalised position and no notch test; any other operand answers ConfigurationError and writes nothing. -/
def Obligations.EringSetsTheRing : Prop :=
  ∀ (s : State) (slot : Slot) (ring : Nat),
    encode (.ering slot ring) = formatS 0x4 (BitVec.ofFin slot) (BitVec.ofNat 5 ring) ∧
    (ring ≤ 25 →
      ∃ t, exec (.ering slot ring) s = .next t ∧
        t.e.ring[slot].toNat = ring ∧
        (∀ k : Slot, k ≠ slot → t.e.ring[k] = s.e.ring[k]) ∧
        (∀ k : Slot, t.e.pos[k] = s.e.pos[k] ∧ t.e.selv[k] = s.e.selv[k] ∧ t.e.sel[k] = s.e.sel[k]) ∧
        t.e.refv = s.e.refv ∧ t.e.ref = s.e.ref ∧ (∀ x : Letter, t.e.plug[x] = s.e.plug[x]) ∧
        ((normalizedPos t.e slot).val : Int) = ((s.e.pos[slot].toNat : Int) - ring) % 26 ∧
        (∀ r : RotorSpec, atNotch r t.e slot = atNotch r s.e slot) ∧
        t.rsp = some (responseWord .ok 0) ∧ OnlyEnigmaChanged s t) ∧
    (26 ≤ ring →
      ∃ t, exec (.ering slot ring) s = .next t ∧ SameRegisters s t ∧
        t.rsp = some (responseWord .configurationError 0) ∧ t.inputs = s.inputs)

/-- 40_enigma_rotor.md R113: `EREFL` (format V, op 0x5) of a present id writes the reflector selector and nothing else;
an absent id answers ConfigurationError and writes nothing. -/
def Obligations.EreflSelectsAReflector : Prop :=
  ∀ (s : State) (id : Nat),
    encode (.erefl id) = formatV 0x5 0 (BitVec.ofNat 5 id) ∧
    ((reflRom s.cfg id).isSome = true →
      ∃ t, exec (.erefl id) s = .next t ∧
        t.e.refv = true ∧ t.e.ref.toNat = id ∧
        (∀ k : Slot, t.e.pos[k] = s.e.pos[k] ∧ t.e.ring[k] = s.e.ring[k] ∧ t.e.selv[k] = s.e.selv[k] ∧
          t.e.sel[k] = s.e.sel[k]) ∧
        (∀ x : Letter, t.e.plug[x] = s.e.plug[x]) ∧
        t.rsp = some (responseWord .ok 0) ∧ OnlyEnigmaChanged s t) ∧
    (reflRom s.cfg id = none →
      ∃ t, exec (.erefl id) s = .next t ∧ SameRegisters s t ∧
        t.rsp = some (responseWord .configurationError 0) ∧ t.inputs = s.inputs)

/-- 40_enigma_rotor.md R114: `ERDPOS` (format S, op 0x9) answers the stored, zero-based position of its slot, selected
or not, and changes nothing; after `EPOS s, p` it answers `p - 1`. -/
def Obligations.ErdposReadsThePosition : Prop :=
  ∀ (s : State) (slot : Slot),
    encode (.erdpos slot) = formatS 0x9 (BitVec.ofFin slot) 0 ∧
    (∃ t r, exec (.erdpos slot) s = .next t ∧ t.rsp = some r ∧ r.toNat = s.e.pos[slot].toNat ∧ SameRegisters s t ∧
      t.inputs = s.inputs) ∧
    (∀ pos : Nat, 1 ≤ pos → pos ≤ 26 → ∃ t u r,
      exec (.epos slot pos) s = .next t ∧ exec (.erdpos slot) t = .next u ∧ u.rsp = some r ∧ r.toNat = pos - 1)

/-- 40_enigma_rotor.md R115: two configuration commands that write different registers may be sent in either order: both
orders perform both commands and leave the same registers. -/
def Obligations.ConfigurationOrderDoesNotMatter : Prop :=
  ∀ (i j : Instr) (a b : ConfigRegister) (s : State),
    configRegisterOf i = some a → configRegisterOf j = some b → a ≠ b →
    ∃ t u t' u', exec i s = .next t ∧ exec j t = .next u ∧ exec j s = .next t' ∧ exec i t' = .next u' ∧
      SameRegisters u u' ∧ u.rsp = t'.rsp ∧ u'.rsp = t.rsp

/-- 20_memory.md R54, R55: the pinned tables as letters and turnovers, and the inverse tables the spec lists. The spec
supplies these tables from general knowledge and checks them against golden vectors (log entry 5). -/
def Obligations.PinnedTables : Prop :=
  (∀ c : Config, rotorRom c 0 = some rotorI ∧ rotorRom c 1 = some rotorII ∧ rotorRom c 2 = some rotorIII ∧
    reflRom c 0 = some reflUkwB) ∧
  ((allLetters.map fun x => Char.ofNat (65 + (wir rotorI x).val)) = "EKMFLGDQVZNTOWYHXUSPAIBRCJ".toList) ∧
  ((allLetters.map fun x => Char.ofNat (65 + (wir rotorII x).val)) = "AJDKSIRUXBLHWTMCQGZNPYFVOE".toList) ∧
  ((allLetters.map fun x => Char.ofNat (65 + (wir rotorIII x).val)) = "BDFHJLCPRTXVZNYEIWGAKMUSQO".toList) ∧
  ((allLetters.map fun x => Char.ofNat (65 + (reflect reflUkwB x).val)) = "YRUHQSLDPXNGOKMIEBFZCWVJAT".toList) ∧
  rotorI.turnover = [16] ∧ rotorII.turnover = [4] ∧ rotorIII.turnover = [21] ∧
  allLetters.map (wirInv rotorI) =
    [20, 22, 24, 6, 0, 3, 5, 15, 21, 25, 1, 4, 2, 10, 12, 19, 7, 23, 18, 11, 17, 8, 13, 16, 14, 9] ∧
  allLetters.map (wirInv rotorII) =
    [0, 9, 15, 2, 25, 22, 17, 11, 5, 1, 3, 10, 14, 19, 24, 20, 16, 6, 4, 13, 7, 23, 12, 8, 21, 18] ∧
  allLetters.map (wirInv rotorIII) =
    [19, 0, 6, 1, 15, 2, 18, 3, 16, 4, 20, 5, 21, 13, 25, 7, 24, 8, 23, 9, 22, 11, 17, 10, 14, 12]

/-- 40_enigma_rotor.md R100, R104, R105 and 20_memory.md R53, over the integers: the normalised position `n` is
`(pos - ring) mod 26`; `Translate` is `(WIR[(x + n) mod 26] - n) mod 26`; `TranslateReverse` is
`(WIRINV[(y + n) mod 26] - n) mod 26`, where `WIRINV[j]` is the one index whose entry is `j`. -/
def Obligations.TranslationFormulas : Prop :=
  (∀ (e : EnigmaRegs) (k : Slot) (r : RotorSpec) (x m : Letter),
    ((normalizedPos e k).val : Int) = ((e.pos[k].toNat : Int) - (e.ring[k].toNat : Int)) % 26 ∧
    ((m.val : Int) = ((x.val : Int) + (normalizedPos e k).val) % 26 →
      ((forward r e k x).val : Int) = (((wir r m).val : Int) - (normalizedPos e k).val) % 26 ∧
      ((backward r e k x).val : Int) = (((wirInv r m).val : Int) - (normalizedPos e k).val) % 26)) ∧
  (∀ (r : RotorSpec) (i j : Letter), wirInv r j = i ↔ wir r i = j)

/-- 40_enigma_rotor.md R106: at every position and ring setting the two translations of a rotor undo each other. -/
def Obligations.TranslationsAreInverse : Prop :=
  ∀ (r : RotorSpec) (e : EnigmaRegs) (k : Slot) (x : Letter),
    backward r e k (forward r e k x) = x ∧ forward r e k (backward r e k x) = x

/-! ### The plugboard -/

/-- 41_enigma_plugboard.md R132: `EPLUG` (format P, op 0x6) of two different letters, neither mapped to a different one,
writes both entries and nothing else; every other operand pair answers ConfigurationError and writes nothing. -/
def Obligations.EplugAddsAPair : Prop :=
  (∀ a b : Nat, encode (.eplug a b) = formatP 0x6 (BitVec.ofNat 5 a) (BitVec.ofNat 5 b)) ∧
  (∀ (s : State) (a b : Letter), a ≠ b →
    (s.e.plug[a] = none ∨ s.e.plug[a] = some b) → (s.e.plug[b] = none ∨ s.e.plug[b] = some a) →
    ∃ t, exec (.eplug a.val b.val) s = .next t ∧
      t.e.plug[a] = some b ∧ t.e.plug[b] = some a ∧
      (∀ x : Letter, x ≠ a → x ≠ b → t.e.plug[x] = s.e.plug[x]) ∧
      (∀ k : Slot, t.e.pos[k] = s.e.pos[k] ∧ t.e.ring[k] = s.e.ring[k] ∧ t.e.selv[k] = s.e.selv[k] ∧
        t.e.sel[k] = s.e.sel[k]) ∧
      t.e.refv = s.e.refv ∧ t.e.ref = s.e.ref ∧
      t.rsp = some (responseWord .ok 0) ∧ OnlyEnigmaChanged s t) ∧
  (∀ (s : State) (a b : Nat),
    (a > 25 ∨ b > 25 ∨ a = b ∨
      ∃ x y z : Letter, x.val = a ∧ y.val = b ∧
        ((s.e.plug[x] = some z ∧ z ≠ y) ∨ (s.e.plug[y] = some z ∧ z ≠ x))) →
    ∃ t, exec (.eplug a b) s = .next t ∧ SameRegisters s t ∧
      t.rsp = some (responseWord .configurationError 0) ∧ t.inputs = s.inputs)

/-- 41_enigma_plugboard.md R132, corner cases: the pair already present, in either order, is answered `OK` and changes
no register; and the two orders of a pair have the same effect. -/
def Obligations.EplugOrderAndRepetition : Prop :=
  (∀ (s : State) (a b : Letter), PlugboardPaired s.e → s.e.plug[a] = some b →
    ∃ t, exec (.eplug a.val b.val) s = .next t ∧ SameRegisters s t ∧ t.rsp = some (responseWord .ok 0)) ∧
  (∀ (s : State) (a b : Nat), exec (.eplug a b) s = exec (.eplug b a) s)

/-- 41_enigma_plugboard.md R133: `EUNPLUG` (format V, op 0x7) of a letter removes both directions of its pairing, or
does nothing when the letter is unmapped, and touches nothing else; a non-letter answers ConfigurationError and writes
nothing. -/
def Obligations.EunplugRemovesThePair : Prop :=
  (∀ a : Nat, encode (.eunplug a) = formatV 0x7 0 (BitVec.ofNat 5 a)) ∧
  (∀ (s : State) (a : Letter), PlugboardPaired s.e →
    ∃ t, exec (.eunplug a.val) s = .next t ∧
      (s.e.plug[a] = none → SameRegisters s t) ∧
      (∀ b : Letter, s.e.plug[a] = some b → t.e.plug[a] = none ∧ t.e.plug[b] = none ∧
        ∀ x : Letter, x ≠ a → x ≠ b → t.e.plug[x] = s.e.plug[x]) ∧
      (∀ k : Slot, t.e.pos[k] = s.e.pos[k] ∧ t.e.ring[k] = s.e.ring[k] ∧ t.e.selv[k] = s.e.selv[k] ∧
        t.e.sel[k] = s.e.sel[k]) ∧
      t.e.refv = s.e.refv ∧ t.e.ref = s.e.ref ∧
      t.rsp = some (responseWord .ok 0) ∧ OnlyEnigmaChanged s t) ∧
  (∀ (s : State) (a : Nat), a > 25 →
    ∃ t, exec (.eunplug a) s = .next t ∧ SameRegisters s t ∧
      t.rsp = some (responseWord .configurationError 0) ∧ t.inputs = s.inputs)

/-- 41_enigma_plugboard.md R134: the plugboard is its own inverse where 10_state.md R27 holds. -/
def Obligations.PlugTranslateIsInvolutive : Prop :=
  ∀ (e : EnigmaRegs) (x : Letter), PlugboardPaired e → plugTranslate e (plugTranslate e x) = x

/-- 41_enigma_plugboard.md R135: `EPLUG` of two unmapped letters, then `EUNPLUG` of either, leaves the registers that
were there before. -/
def Obligations.UnplugUndoesPlug : Prop :=
  ∀ (s : State) (a b x : Letter), a ≠ b → s.e.plug[a] = none → s.e.plug[b] = none → (x = a ∨ x = b) →
    ∃ t u, exec (.eplug a.val b.val) s = .next t ∧ exec (.eunplug x.val) t = .next u ∧ SameRegisters s u

/-! ### The Enigma machine -/

/-- 42_enigma_machine.md R151 and the refusals of R152, in the order of 60_exceptions.md R246: an `EENC` whose rotors or
reflector are not all selected answers ConfigurationError, whatever its letter; on a configured unit a non-letter
answers InvalidInputError; neither writes a register. -/
def Obligations.EencRefusals : Prop :=
  ∀ (s : State) (f : Bool) (x : Nat),
    (configured s.e f = true ↔
      s.e.selv[Slot.right] = true ∧ s.e.selv[Slot.centre] = true ∧ s.e.selv[Slot.left] = true ∧ s.e.refv = true ∧
        (f = false ∨ s.e.selv[Slot.fourth] = true)) ∧
    (¬ (s.e.selv[Slot.right] = true ∧ s.e.selv[Slot.centre] = true ∧ s.e.selv[Slot.left] = true ∧ s.e.refv = true ∧
        (f = false ∨ s.e.selv[Slot.fourth] = true)) →
      ∃ t, exec (.eenc f x) s = .next t ∧ SameRegisters s t ∧
        t.rsp = some (responseWord .configurationError 0) ∧ t.inputs = s.inputs) ∧
    (s.e.selv[Slot.right] = true → s.e.selv[Slot.centre] = true → s.e.selv[Slot.left] = true → s.e.refv = true →
      (f = false ∨ s.e.selv[Slot.fourth] = true) → x > 25 →
      ∃ t, exec (.eenc f x) s = .next t ∧ SameRegisters s t ∧
        t.rsp = some (responseWord .invalidInputError 0) ∧ t.inputs = s.inputs)

/-- 42_enigma_machine.md R153, R102, R103: on a configured unit every `EENC` of a letter completes and moves the rotors
by the stepping rule: the right rotor always, the centre rotor when it or the right rotor shows a turnover position of
its own, the left rotor when the centre one does, the fourth never; the notch tests read the raw positions before any
rotation; nothing else in the device changes. -/
def Obligations.EencStepsTheRotors : Prop :=
  ∀ (s : State) (f : Bool) (x : Letter) (right centre : RotorSpec), s.Inv → configured s.e f = true →
    rotorRom s.cfg s.e.sel[Slot.right].toNat = some right → rotorRom s.cfg s.e.sel[Slot.centre].toNat = some centre →
    ∃ t y, exec (.eenc f x.val) s = .next t ∧ t.rsp = some (responseWord .ok y) ∧
      t.e.pos[Slot.right].toNat = (s.e.pos[Slot.right].toNat + 1) % 26 ∧
      ((∃ n ∈ centre.turnover, n.val = s.e.pos[Slot.centre].toNat) →
        t.e.pos[Slot.centre].toNat = (s.e.pos[Slot.centre].toNat + 1) % 26 ∧
        t.e.pos[Slot.left].toNat = (s.e.pos[Slot.left].toNat + 1) % 26) ∧
      ((∀ n ∈ centre.turnover, n.val ≠ s.e.pos[Slot.centre].toNat) →
        t.e.pos[Slot.left] = s.e.pos[Slot.left] ∧
        ((∃ n ∈ right.turnover, n.val = s.e.pos[Slot.right].toNat) →
          t.e.pos[Slot.centre].toNat = (s.e.pos[Slot.centre].toNat + 1) % 26) ∧
        ((∀ n ∈ right.turnover, n.val ≠ s.e.pos[Slot.right].toNat) →
          t.e.pos[Slot.centre] = s.e.pos[Slot.centre])) ∧
      t.e.pos[Slot.fourth] = s.e.pos[Slot.fourth] ∧
      (∀ k : Slot, t.e.ring[k] = s.e.ring[k] ∧ t.e.selv[k] = s.e.selv[k] ∧ t.e.sel[k] = s.e.sel[k]) ∧
      t.e.refv = s.e.refv ∧ t.e.ref = s.e.ref ∧ (∀ z : Letter, t.e.plug[z] = s.e.plug[z]) ∧ OnlyEnigmaChanged s t

/-- 42_enigma_machine.md R154: an `EENC` of a letter answers the letter that the path gives at the positions it leaves:
plugboard, right, centre, left, with `f = 1` the fourth, reflector, with `f = 1` the fourth, left, centre, right,
plugboard. With `f = 0` the fourth slot is not read. -/
def Obligations.EencAnswersThePath : Prop :=
  ∀ (s : State) (x : Letter) (right centre left : RotorSpec) (refl : ReflSpec),
    rotorRom s.cfg s.e.sel[Slot.right].toNat = some right → rotorRom s.cfg s.e.sel[Slot.centre].toNat = some centre →
    rotorRom s.cfg s.e.sel[Slot.left].toNat = some left → reflRom s.cfg s.e.ref.toNat = some refl →
    (configured s.e false = true →
      ∃ t r, exec (.eenc false x.val) s = .next t ∧ t.rsp = some r ∧
        r.toNat =
          (plugTranslate s.e <| backward right t.e Slot.right <| backward centre t.e Slot.centre <|
            backward left t.e Slot.left <| reflect refl <| forward left t.e Slot.left <|
            forward centre t.e Slot.centre <| forward right t.e Slot.right <| plugTranslate s.e x).val) ∧
    (∀ fourth : RotorSpec, rotorRom s.cfg s.e.sel[Slot.fourth].toNat = some fourth → configured s.e true = true →
      ∃ t r, exec (.eenc true x.val) s = .next t ∧ t.rsp = some r ∧
        r.toNat =
          (plugTranslate s.e <| backward right t.e Slot.right <| backward centre t.e Slot.centre <|
            backward left t.e Slot.left <| backward fourth t.e Slot.fourth <| reflect refl <|
            forward fourth t.e Slot.fourth <| forward left t.e Slot.left <|
            forward centre t.e Slot.centre <| forward right t.e Slot.right <| plugTranslate s.e x).val)

/-- 42_enigma_machine.md R155: for fixed registers the path is an involution; and where the reflector has no fixed point
no letter is sent to itself. -/
def Obligations.PathIsInvolutive : Prop :=
  ∀ (k : Stack) (e : EnigmaRegs) (x : Letter), PlugboardPaired e →
    path k e (path k e x) = x ∧ ((∀ z : Letter, reflect k.refl z ≠ z) → path k e x ≠ x)

/-- 42_enigma_machine.md R156, R153: the double step. With the right rotor at a turnover position, the centre rotor one
below a turnover position and not itself at one, the first letter moves right and centre and not left, and the second
moves all three. -/
def Obligations.DoubleStep : Prop :=
  ∀ (s : State) (f : Bool) (x y : Letter) (right centre : RotorSpec), s.Inv → configured s.e f = true →
    rotorRom s.cfg s.e.sel[Slot.right].toNat = some right → rotorRom s.cfg s.e.sel[Slot.centre].toNat = some centre →
    (∃ n ∈ right.turnover, n.val = s.e.pos[Slot.right].toNat) →
    (∃ n ∈ centre.turnover, n.val = (s.e.pos[Slot.centre].toNat + 1) % 26) →
    (∀ n ∈ centre.turnover, n.val ≠ s.e.pos[Slot.centre].toNat) →
    ∃ t u, exec (.eenc f x.val) s = .next t ∧ exec (.eenc f y.val) t = .next u ∧
      t.e.pos[Slot.right].toNat = (s.e.pos[Slot.right].toNat + 1) % 26 ∧
      t.e.pos[Slot.centre].toNat = (s.e.pos[Slot.centre].toNat + 1) % 26 ∧
      t.e.pos[Slot.left] = s.e.pos[Slot.left] ∧
      u.e.pos[Slot.right].toNat = (s.e.pos[Slot.right].toNat + 2) % 26 ∧
      u.e.pos[Slot.centre].toNat = (s.e.pos[Slot.centre].toNat + 2) % 26 ∧
      u.e.pos[Slot.left].toNat = (s.e.pos[Slot.left].toNat + 1) % 26

/-- 42_enigma_machine.md R157: stepping does not depend on data. Two units with the same positions and the same rotors
in slots 0 and 1 are at the same positions after equally many letters, whatever the letters, plugs, rings, reflector and
left and fourth rotors. -/
def Obligations.SteppingIgnoresData : Prop :=
  ∀ (f g : Bool) (xs ys : List Letter) (s t s' t' : State) (ps qs : List ResponseWord),
    s.Inv → t.Inv → configured s.e f = true → configured t.e g = true → xs.length = ys.length →
    (∀ k : Slot, s.e.pos[k] = t.e.pos[k]) → s.cfg = t.cfg →
    s.e.sel[Slot.right] = t.e.sel[Slot.right] → s.e.sel[Slot.centre] = t.e.sel[Slot.centre] →
    transact (xs.map fun x => encode (.eenc f x.val)) s = some (s', ps) →
    transact (ys.map fun y => encode (.eenc g y.val)) t = some (t', qs) →
    ∀ k : Slot, s'.e.pos[k] = t'.e.pos[k]

/-- 42_enigma_machine.md R158: self-reciprocity. A configured unit answers every message of letters, and from the same
state the answers are answered with the message. -/
def Obligations.EnigmaSelfReciprocity : Prop :=
  ∀ (s : State) (f : Bool) (xs : List Letter), s.Inv → configured s.e f = true →
    ∃ (ys : List Letter) (t u : State),
      transact (xs.map fun x => encode (.eenc f x.val)) s =
        some (t, ys.map fun y => responseWord .ok (BitVec.ofNat 6 y.val)) ∧
      transact (ys.map fun y => encode (.eenc f y.val)) s =
        some (u, xs.map fun x => responseWord .ok (BitVec.ofNat 6 x.val)) ∧
      SameRegisters t u

/-- 42_enigma_machine.md R160: the source's whole-message operation. It fails as a whole on an unconfigured unit, and on
a text with a code above 25; otherwise one `EENC` for each code, sent in order, answers its output letter by letter and
leaves the positions it leaves. -/
def Obligations.DeviceRealisesEncrypt : Prop :=
  ∀ (s : State) (f : Bool) (text : List Nat), s.Inv →
    (configured s.e f = false →
      encryptMessage s.cfg f text s.e = .error (.status .configurationError)) ∧
    (configured s.e f = true → (∃ v ∈ text, v > 25) →
      encryptMessage s.cfg f text s.e = .error (.status .invalidInputError)) ∧
    (configured s.e f = true → (∀ v ∈ text, v ≤ 25) →
      ∃ out e' t, encryptMessage s.cfg f text s.e = .ok (out, e') ∧ out.length = text.length ∧
        transact (text.map fun v => encode (.eenc f v)) s =
          some (t, out.map fun y => responseWord .ok (BitVec.ofNat 6 y.val)) ∧
        t.e = e' ∧ t.l = s.l ∧ t.cfg = s.cfg)

/-! ### The Lorenz unit -/

/-- 43_lorenz.md R183: `LPOS` (format W, op 0xB) of a wheel 0 to 11 and a position below its length stores the position
and touches nothing else; any other operands answer ConfigurationError and write nothing. -/
def Obligations.LposSetsAWheel : Prop :=
  (∀ wheel p : Nat, encode (.lpos wheel p) = formatW 0xB (BitVec.ofNat 4 wheel) (BitVec.ofNat 6 p)) ∧
  (∀ (s : State) (w : Wheel) (p : Nat), p < wheelLen[w] →
    ∃ t, exec (.lpos w.val p) s = .next t ∧ t.l.pos[w].toNat = p ∧
      (∀ v : Wheel, v ≠ w → t.l.pos[v] = s.l.pos[v]) ∧
      t.rsp = some (responseWord .ok 0) ∧ OnlyLorenzChanged s t) ∧
  (∀ (s : State) (wheel p : Nat), (wheel > 11 ∨ ∃ w : Wheel, w.val = wheel ∧ wheelLen[w] ≤ p) →
    ∃ t, exec (.lpos wheel p) s = .next t ∧ SameRegisters s t ∧
      t.rsp = some (responseWord .configurationError 0) ∧ t.inputs = s.inputs)

/-- 43_lorenz.md R189: `LRDPOS` (format W, op 0xD) of a wheel 0 to 11 answers its position and changes nothing; a wheel
12 or above answers ConfigurationError. -/
def Obligations.LrdposReadsAWheel : Prop :=
  (∀ wheel : Nat, encode (.lrdpos wheel) = formatW 0xD (BitVec.ofNat 4 wheel) 0) ∧
  (∀ (s : State) (w : Wheel),
    ∃ t r, exec (.lrdpos w.val) s = .next t ∧ t.rsp = some r ∧ r.toNat = s.l.pos[w].toNat ∧ SameRegisters s t ∧
      t.inputs = s.inputs) ∧
  (∀ (s : State) (wheel : Nat), wheel > 11 →
    ∃ t, exec (.lrdpos wheel) s = .next t ∧ SameRegisters s t ∧
      t.rsp = some (responseWord .configurationError 0) ∧ t.inputs = s.inputs)

/-- 43_lorenz.md R184, R185, 20_memory.md R58: `LENC` of any unit completes, with no configuration needed, and answers
the unit xor the keystream of the positions at its start: bit `4 - k` of the answer is bit `4 - k` of the unit, flipped
by the cam of Chi `k + 1` and by the cam of Psi `k + 1`; the ENIGMA registers are untouched. -/
def Obligations.LencXorsTheKeystream : Prop :=
  ∀ (s : State) (u : CodeUnit), s.Inv →
    ∃ t d, exec (.lenc u) s = .next t ∧ t.rsp = some (responseWord .ok d) ∧ d.toNat < 32 ∧
      (∀ (k : Fin 5) (chi psi : Wheel), chi.val = k.val → psi.val = k.val + 7 →
        d.getLsbD (4 - k.val) =
          xor (u.getLsbD (4 - k.val))
            (xor (camAt s.cfg.cams chi s.l.pos[chi].toNat) (camAt s.cfg.cams psi s.l.pos[psi].toNat))) ∧
      OnlyLorenzChanged s t

/-- 43_lorenz.md R188, R186: after every `LENC` the Chi wheels and Motor 1 have moved one place; Motor 2 has moved when
Motor 1's cam, read after its own move, is set; and the five Psi wheels have moved together when Motor 2's cam is set,
read after Motor 2's move where `M2_SAMPLE` is `after` and before it where it is `before`. -/
def Obligations.LencStepsTheWheels : Prop :=
  ∀ (s : State) (u : CodeUnit), s.Inv →
    ∃ t, exec (.lenc u) s = .next t ∧
      (∀ w : Wheel, w.val ≤ 5 → t.l.pos[w].toNat = (s.l.pos[w].toNat + 1) % wheelLen[w]) ∧
      (camAt s.cfg.cams 5 t.l.pos[(5 : Wheel)].toNat = true →
        t.l.pos[(6 : Wheel)].toNat = (s.l.pos[(6 : Wheel)].toNat + 1) % 37) ∧
      (camAt s.cfg.cams 5 t.l.pos[(5 : Wheel)].toNat = false → t.l.pos[(6 : Wheel)] = s.l.pos[(6 : Wheel)]) ∧
      ∃ m2 : Bool,
        (s.cfg.m2Sample = .after → m2 = camAt s.cfg.cams 6 t.l.pos[(6 : Wheel)].toNat) ∧
        (s.cfg.m2Sample = .before → m2 = camAt s.cfg.cams 6 s.l.pos[(6 : Wheel)].toNat) ∧
        (m2 = true → ∀ w : Wheel, 7 ≤ w.val → t.l.pos[w].toNat = (s.l.pos[w].toNat + 1) % wheelLen[w]) ∧
        (m2 = false → ∀ w : Wheel, 7 ≤ w.val → t.l.pos[w] = s.l.pos[w])

/-- 43_lorenz.md R188, last sentence: on a letter in which Motor 2 does not move, both values of `M2_SAMPLE` step the
wheels alike. -/
def Obligations.SamplesAgreeWhenMotor2Rests : Prop :=
  ∀ (c d : Config) (l : LorenzRegs), c.cams = d.cams → c.m2Sample = .after → d.m2Sample = .before →
    WheelsNormalised l → (stepWheels c l).pos[(6 : Wheel)] = l.pos[(6 : Wheel)] →
    stepWheels c l = stepWheels d l

/-- 43_lorenz.md R191: after `k` units, whatever they are, the Chi wheels and Motor 1 are `k` places on, and two
messages of the same length leave the same positions. -/
def Obligations.WheelsAfterManyUnits : Prop :=
  ∀ (s : State) (us vs : List CodeUnit), s.Inv → us.length = vs.length →
    ∃ t t' ps qs,
      transact (us.map fun u => encode (.lenc u)) s = some (t, ps) ∧
      transact (vs.map fun v => encode (.lenc v)) s = some (t', qs) ∧
      (∀ w : Wheel, w.val ≤ 5 → t.l.pos[w].toNat = (s.l.pos[w].toNat + us.length) % wheelLen[w]) ∧
      t'.l = t.l

/-- 43_lorenz.md R192: the round trip. From any positions every message of units is answered, and from the same
positions the answers are answered with the message, for every cam table and both values of `M2_SAMPLE`. -/
def Obligations.LorenzRoundTrip : Prop :=
  ∀ (s : State) (us : List CodeUnit), s.Inv →
    ∃ (vs : List CodeUnit) (t t' : State),
      transact (us.map fun u => encode (.lenc u)) s = some (t, vs.map fun v => responseWord .ok (v.setWidth 6)) ∧
      transact (vs.map fun v => encode (.lenc v)) s = some (t', us.map fun u => responseWord .ok (u.setWidth 6)) ∧
      SameRegisters t t'

/-- 30_encoding.md R80, 70_reset_and_hazards.md R274: `LLOAD` of twelve positions, each below its wheel's length, is
answered `OK` twelve times and leaves exactly those positions. -/
def Obligations.LloadSetsEveryWheel : Prop :=
  ∀ (s : State) (positions : Vector Nat 12), (∀ w : Wheel, positions[w] < wheelLen[w]) →
    ∃ is t, expandPseudo (.lload positions) = .ok is ∧
      sendUntilError is s = some (t, List.replicate 12 (responseWord .ok 0)) ∧
      (∀ w : Wheel, t.l.pos[w].toNat = positions[w]) ∧ t.e = s.e ∧ t.cfg = s.cfg

/-! ### Errors -/

/-- 60_exceptions.md R241: a command answers ConfigurationError exactly for the causes the table lists. -/
def Obligations.ConfigurationErrorCauses : Prop :=
  ∀ (i : Instr) (s : State), s.Inv →
    ((∃ t r, exec i s = .next t ∧ t.rsp = some r ∧ rspStatus r = 1) ↔ configurationErrorCause i s)

/-- 60_exceptions.md R242: the only cause of InvalidInputError is a non-letter operand of `EENC` on a configured unit.
-/
def Obligations.InvalidInputErrorCauses : Prop :=
  ∀ (i : Instr) (s : State), s.Inv →
    ((∃ t r, exec i s = .next t ∧ t.rsp = some r ∧ rspStatus r = 2) ↔
      ∃ f x, i = .eenc f x ∧ x > 25 ∧ configured s.e f = true)

/-- 60_exceptions.md R247, R244: whatever word is sent, an answer that is not `OK` carries data 0, and no register of
either unit has been written. -/
def Obligations.ErrorsWriteNothing : Prop :=
  ∀ (s t : State) (c : CommandWord) (r : ResponseWord), send c s = some (t, r) → rspStatus r ≠ 0 →
    rspData r = 0 ∧ SameRegisters s t ∧ t.inputs = s.inputs

/-- 60_exceptions.md R248: any number of refused commands leaves the state before them, so that what is sent afterwards
is answered as if they had not been sent. -/
def Obligations.RefusedCommandsLeaveNoTrace : Prop :=
  ∀ (bad good : List CommandWord) (s t u : State) (rs qs : List ResponseWord),
    transact bad s = some (t, rs) → (∀ r ∈ rs, rspStatus r ≠ 0) → transact good s = some (u, qs) →
    SameRegisters s t ∧ ∃ v, transact good t = some (v, qs) ∧ SameRegisters u v

/-! ### Whole machine -/

/-- 10_state.md R20: a command of one unit reads and writes nothing of the other: it leaves the other unit's registers,
and its answer and its effect are the same whatever they hold. -/
def Obligations.UnitsAreIndependent : Prop :=
  (∀ (i : Instr) (s t : State), exec i s = .next t →
    (isEnigmaCommand i = true → t.l = s.l) ∧ (isEnigmaCommand i = false → t.e = s.e)) ∧
  (∀ (i : Instr) (s t : State) (l : LorenzRegs), isEnigmaCommand i = true → exec i s = .next t →
    exec i { s with l := l } = .next { t with l := l }) ∧
  (∀ (i : Instr) (s t : State) (e : EnigmaRegs), isEnigmaCommand i = false → exec i s = .next t →
    exec i { s with e := e } = .next { t with e := e })

/-- 10_state.md section 7 (the column "written by"): a register that differs after a command was written by one of the
commands the table names for it; `EENC` never moves the fourth slot. -/
def Obligations.RegistersHaveTheirWriters : Prop :=
  ∀ (i : Instr) (s t : State), exec i s = .next t →
    (∀ k : Slot, t.e.pos[k] ≠ s.e.pos[k] →
      i = .erst ∨ (∃ p, i = .epos k p) ∨ ((∃ f x, i = .eenc f x) ∧ k ≠ Slot.fourth)) ∧
    (∀ k : Slot, t.e.ring[k] ≠ s.e.ring[k] → i = .erst ∨ ∃ r, i = .ering k r) ∧
    (∀ k : Slot, t.e.selv[k] ≠ s.e.selv[k] ∨ t.e.sel[k] ≠ s.e.sel[k] → i = .erst ∨ ∃ id, i = .esel k id) ∧
    (t.e.refv ≠ s.e.refv ∨ t.e.ref ≠ s.e.ref → i = .erst ∨ ∃ id, i = .erefl id) ∧
    (∀ x : Letter, t.e.plug[x] ≠ s.e.plug[x] → i = .erst ∨ (∃ a b, i = .eplug a b) ∨ ∃ a, i = .eunplug a) ∧
    (∀ w : Wheel, t.l.pos[w] ≠ s.l.pos[w] → i = .lrst ∨ (∃ p, i = .lpos w.val p) ∨ ∃ u, i = .lenc u)

/-- 10_state.md R32: two devices with equal parameters and equal registers answer every command sequence alike, whatever
their ports held before. -/
def Obligations.EqualRegistersAnswerAlike : Prop :=
  ∀ (cs : List CommandWord) (s t s' : State) (rs : List ResponseWord), SameRegisters s t →
    transact cs s = some (s', rs) → ∃ t', transact cs t = some (t', rs) ∧ SameRegisters s' t'

/-! ### The ITA2 companion -/

/-- 44_ita2_companion.md R226: decoding an encoded text of supported characters gives the text, with shift codes
swallowed; with shift codes passed through it gives the text once the shift tokens are deleted. -/
def Obligations.Ita2RoundTrip : Prop :=
  ∀ (tables : Ita2Tables) (text : List Char), (∀ ch ∈ text, supported tables ch = true) →
    ∃ codes tokens, ita2Encode tables text = .ok codes ∧
      ita2Decode tables false codes = .ok (text.map .char) ∧
      ita2Decode tables true codes = .ok tokens ∧ charsOf tokens = text

/-- 44_ita2_companion.md R222, R226: the letters `A` to `Z` are encoded from the letter table and the digits, which it does
not hold, from the figure table; and the source's vector is encoded in 49 codes, 7 of them shifts, and decoded again. -/
def Obligations.Ita2VectorRoundTrip : Prop :=
  ∀ tables : Ita2Tables,
    (∀ ch ∈ upperCase, ∃ c, codeFor tables ch = some (.letterShift, c) ∧ charOf tables.ltrs c = some ch) ∧
    (∀ ch ∈ digits, (∀ c : CodeUnit, charOf tables.ltrs c ≠ some ch) ∧
      ∃ c, codeFor tables ch = some (.figureShift, c) ∧ charOf tables.figs c = some ch) ∧
    ∃ codes, ita2Encode tables (upperCase ++ digits ++ ['A', '1', 'B', '2', 'C', '3']) = .ok codes ∧
      codes.length = 49 ∧
      (codes.filter fun c => c == tables.ltrsCode || c == tables.figsCode).length = 7 ∧
      ita2Decode tables false codes = .ok ((upperCase ++ digits ++ ['A', '1', 'B', '2', 'C', '3']).map .char)

/-- 44_ita2_companion.md R228: text, encoded, enciphered, enciphered again from the same wheel positions, and decoded,
is the text. -/
def Obligations.LorenzTextRoundTrip : Prop :=
  ∀ (tables : Ita2Tables) (c : Config) (l : LorenzRegs) (text : List Char),
    (∀ ch ∈ text, supported tables ch = true) →
    ∃ codes, ita2Encode tables text = .ok codes ∧
      ita2Decode tables false (lorenzEncrypt c (lorenzEncrypt c codes l).1 l).1 = .ok (text.map .char)
end

