-- ==== Sys2Proof/Laws/State.lean ====
section
/-! SUPPORT. One lemma for each field of each update, so that no later proof unfolds a record update. -/

namespace Sys2Proof.Machine

/-! ### Presenting a response -/

@[simp] theorem respond_e (s : State) (st : Status) (d : BitVec 6) : (s.respond st d).e = s.e := rfl
@[simp] theorem respond_l (s : State) (st : Status) (d : BitVec 6) : (s.respond st d).l = s.l := rfl
@[simp] theorem respond_cfg (s : State) (st : Status) (d : BitVec 6) : (s.respond st d).cfg = s.cfg := rfl
@[simp] theorem respond_inputs (s : State) (st : Status) (d : BitVec 6) : (s.respond st d).inputs = s.inputs := rfl
@[simp] theorem respond_rsp (s : State) (st : Status) (d : BitVec 6) : (s.respond st d).rsp = some (responseWord st d) := rfl

/-! ### Replacing the ENIGMA registers -/

@[simp] theorem withEnigma_e (s : State) (e : EnigmaRegs) : (s.withEnigma e).e = e := rfl
@[simp] theorem withEnigma_l (s : State) (e : EnigmaRegs) : (s.withEnigma e).l = s.l := rfl
@[simp] theorem withEnigma_cfg (s : State) (e : EnigmaRegs) : (s.withEnigma e).cfg = s.cfg := rfl
@[simp] theorem withEnigma_inputs (s : State) (e : EnigmaRegs) : (s.withEnigma e).inputs = s.inputs := rfl
@[simp] theorem withEnigma_rsp (s : State) (e : EnigmaRegs) : (s.withEnigma e).rsp = s.rsp := rfl

/-! ### Replacing the LORENZ registers -/

@[simp] theorem withLorenz_e (s : State) (l : LorenzRegs) : (s.withLorenz l).e = s.e := rfl
@[simp] theorem withLorenz_l (s : State) (l : LorenzRegs) : (s.withLorenz l).l = l := rfl
@[simp] theorem withLorenz_cfg (s : State) (l : LorenzRegs) : (s.withLorenz l).cfg = s.cfg := rfl
@[simp] theorem withLorenz_inputs (s : State) (l : LorenzRegs) : (s.withLorenz l).inputs = s.inputs := rfl
@[simp] theorem withLorenz_rsp (s : State) (l : LorenzRegs) : (s.withLorenz l).rsp = s.rsp := rfl

/-! ### Taking the next input -/

@[simp] theorem takeInput_e (s : State) : (s.takeInput).e = s.e := rfl
@[simp] theorem takeInput_l (s : State) : (s.takeInput).l = s.l := rfl
@[simp] theorem takeInput_cfg (s : State) : (s.takeInput).cfg = s.cfg := rfl
@[simp] theorem takeInput_inputs (s : State) : (s.takeInput).inputs = s.inputs.tail := rfl
@[simp] theorem takeInput_rsp (s : State) : (s.takeInput).rsp = s.rsp := rfl

/-! ### Presenting a command word -/

@[simp] theorem present_e (s : State) (c : CommandWord) : (s.present c).e = s.e := rfl
@[simp] theorem present_l (s : State) (c : CommandWord) : (s.present c).l = s.l := rfl
@[simp] theorem present_cfg (s : State) (c : CommandWord) : (s.present c).cfg = s.cfg := rfl
@[simp] theorem present_inputs (s : State) (c : CommandWord) : (s.present c).inputs = .command c :: s.inputs := rfl
@[simp] theorem present_rsp (s : State) (c : CommandWord) : (s.present c).rsp = s.rsp := rfl

/-! ### Reset -/

@[simp] theorem deviceReset_e (s : State) : (deviceReset s).e = EnigmaRegs.reset := rfl
@[simp] theorem deviceReset_l (s : State) : (deviceReset s).l = LorenzRegs.reset := rfl
@[simp] theorem deviceReset_cfg (s : State) : (deviceReset s).cfg = s.cfg := rfl
@[simp] theorem deviceReset_inputs (s : State) : (deviceReset s).inputs = s.inputs := rfl
@[simp] theorem deviceReset_rsp (s : State) : (deviceReset s).rsp = none := rfl

/-! ### Rotating a rotor -/

@[simp] theorem rotate_pos (e : EnigmaRegs) (s : Slot) : (rotate e s).pos = e.pos.set s (BitVec.ofNat 5 ((e.pos[s].toNat + 1) % 26)) := rfl
@[simp] theorem rotate_ring (e : EnigmaRegs) (s : Slot) : (rotate e s).ring = e.ring := rfl
@[simp] theorem rotate_selv (e : EnigmaRegs) (s : Slot) : (rotate e s).selv = e.selv := rfl
@[simp] theorem rotate_sel (e : EnigmaRegs) (s : Slot) : (rotate e s).sel = e.sel := rfl
@[simp] theorem rotate_refv (e : EnigmaRegs) (s : Slot) : (rotate e s).refv = e.refv := rfl
@[simp] theorem rotate_ref (e : EnigmaRegs) (s : Slot) : (rotate e s).ref = e.ref := rfl
@[simp] theorem rotate_plug (e : EnigmaRegs) (s : Slot) : (rotate e s).plug = e.plug := rfl

/-! ### Writing a shown position -/

@[simp] theorem setShownPos_pos (e : EnigmaRegs) (s : Slot) (p : BitVec 5) : (setShownPos e s p).pos = e.pos.set s p := rfl
@[simp] theorem setShownPos_ring (e : EnigmaRegs) (s : Slot) (p : BitVec 5) : (setShownPos e s p).ring = e.ring := rfl
@[simp] theorem setShownPos_selv (e : EnigmaRegs) (s : Slot) (p : BitVec 5) : (setShownPos e s p).selv = e.selv := rfl
@[simp] theorem setShownPos_sel (e : EnigmaRegs) (s : Slot) (p : BitVec 5) : (setShownPos e s p).sel = e.sel := rfl
@[simp] theorem setShownPos_refv (e : EnigmaRegs) (s : Slot) (p : BitVec 5) : (setShownPos e s p).refv = e.refv := rfl
@[simp] theorem setShownPos_ref (e : EnigmaRegs) (s : Slot) (p : BitVec 5) : (setShownPos e s p).ref = e.ref := rfl
@[simp] theorem setShownPos_plug (e : EnigmaRegs) (s : Slot) (p : BitVec 5) : (setShownPos e s p).plug = e.plug := rfl

/-! ### Writing a ring setting -/

@[simp] theorem setRing_pos (e : EnigmaRegs) (s : Slot) (r : BitVec 5) : (setRing e s r).pos = e.pos := rfl
@[simp] theorem setRing_ring (e : EnigmaRegs) (s : Slot) (r : BitVec 5) : (setRing e s r).ring = e.ring.set s r := rfl
@[simp] theorem setRing_selv (e : EnigmaRegs) (s : Slot) (r : BitVec 5) : (setRing e s r).selv = e.selv := rfl
@[simp] theorem setRing_sel (e : EnigmaRegs) (s : Slot) (r : BitVec 5) : (setRing e s r).sel = e.sel := rfl
@[simp] theorem setRing_refv (e : EnigmaRegs) (s : Slot) (r : BitVec 5) : (setRing e s r).refv = e.refv := rfl
@[simp] theorem setRing_ref (e : EnigmaRegs) (s : Slot) (r : BitVec 5) : (setRing e s r).ref = e.ref := rfl
@[simp] theorem setRing_plug (e : EnigmaRegs) (s : Slot) (r : BitVec 5) : (setRing e s r).plug = e.plug := rfl

/-! ### Writing a rotor selector -/

@[simp] theorem selectRotor_pos (e : EnigmaRegs) (s : Slot) (id : Nat) : (selectRotor e s id).pos = e.pos := rfl
@[simp] theorem selectRotor_ring (e : EnigmaRegs) (s : Slot) (id : Nat) : (selectRotor e s id).ring = e.ring := rfl
@[simp] theorem selectRotor_selv (e : EnigmaRegs) (s : Slot) (id : Nat) : (selectRotor e s id).selv = e.selv.set s true := rfl
@[simp] theorem selectRotor_sel (e : EnigmaRegs) (s : Slot) (id : Nat) : (selectRotor e s id).sel = e.sel.set s (BitVec.ofNat 5 id) := rfl
@[simp] theorem selectRotor_refv (e : EnigmaRegs) (s : Slot) (id : Nat) : (selectRotor e s id).refv = e.refv := rfl
@[simp] theorem selectRotor_ref (e : EnigmaRegs) (s : Slot) (id : Nat) : (selectRotor e s id).ref = e.ref := rfl
@[simp] theorem selectRotor_plug (e : EnigmaRegs) (s : Slot) (id : Nat) : (selectRotor e s id).plug = e.plug := rfl

/-! ### Writing the reflector selector -/

@[simp] theorem selectReflector_pos (e : EnigmaRegs) (id : Nat) : (selectReflector e id).pos = e.pos := rfl
@[simp] theorem selectReflector_ring (e : EnigmaRegs) (id : Nat) : (selectReflector e id).ring = e.ring := rfl
@[simp] theorem selectReflector_selv (e : EnigmaRegs) (id : Nat) : (selectReflector e id).selv = e.selv := rfl
@[simp] theorem selectReflector_sel (e : EnigmaRegs) (id : Nat) : (selectReflector e id).sel = e.sel := rfl
@[simp] theorem selectReflector_refv (e : EnigmaRegs) (id : Nat) : (selectReflector e id).refv = true := rfl
@[simp] theorem selectReflector_ref (e : EnigmaRegs) (id : Nat) : (selectReflector e id).ref = BitVec.ofNat 5 id := rfl
@[simp] theorem selectReflector_plug (e : EnigmaRegs) (id : Nat) : (selectReflector e id).plug = e.plug := rfl

/-! ### Adding a plug pair -/

@[simp] theorem plugPair_pos (e : EnigmaRegs) (a b : Letter) : (plugPair e a b).pos = e.pos := rfl
@[simp] theorem plugPair_ring (e : EnigmaRegs) (a b : Letter) : (plugPair e a b).ring = e.ring := rfl
@[simp] theorem plugPair_selv (e : EnigmaRegs) (a b : Letter) : (plugPair e a b).selv = e.selv := rfl
@[simp] theorem plugPair_sel (e : EnigmaRegs) (a b : Letter) : (plugPair e a b).sel = e.sel := rfl
@[simp] theorem plugPair_refv (e : EnigmaRegs) (a b : Letter) : (plugPair e a b).refv = e.refv := rfl
@[simp] theorem plugPair_ref (e : EnigmaRegs) (a b : Letter) : (plugPair e a b).ref = e.ref := rfl
@[simp] theorem plugPair_plug (e : EnigmaRegs) (a b : Letter) : (plugPair e a b).plug = (e.plug.set a (some b)).set b (some a) := rfl

/-! ### Writing and rotating a wheel -/

@[simp] theorem setWheelPos_pos (l : LorenzRegs) (w : Wheel) (p : BitVec 6) :
    (setWheelPos l w p).pos = l.pos.set w p := rfl
@[simp] theorem rotateWheel_pos (l : LorenzRegs) (w : Wheel) :
    (rotateWheel l w).pos = l.pos.set w (BitVec.ofNat 6 ((l.pos[w].toNat + 1) % wheelLen[w])) := rfl

/-! ### The registers at reset -/

@[simp] theorem reset_pos (k : Nat) (h : k < 4) : EnigmaRegs.reset.pos[k] = 0 := by simp [EnigmaRegs.reset]
@[simp] theorem reset_ring (k : Nat) (h : k < 4) : EnigmaRegs.reset.ring[k] = 0 := by simp [EnigmaRegs.reset]
@[simp] theorem reset_selv (k : Nat) (h : k < 4) : EnigmaRegs.reset.selv[k] = false := by simp [EnigmaRegs.reset]
@[simp] theorem reset_sel (k : Nat) (h : k < 4) : EnigmaRegs.reset.sel[k] = 0 := by simp [EnigmaRegs.reset]
@[simp] theorem reset_refv : EnigmaRegs.reset.refv = false := rfl
@[simp] theorem reset_ref : EnigmaRegs.reset.ref = 0 := rfl
@[simp] theorem reset_plug (k : Nat) (h : k < 26) : EnigmaRegs.reset.plug[k] = none := by simp [EnigmaRegs.reset]
@[simp] theorem reset_wheel (k : Nat) (h : k < 12) : LorenzRegs.reset.pos[k] = 0 := by simp [LorenzRegs.reset]

end Sys2Proof.Machine
end

