-- ==== Sys2Proof/Laws/Ops.lean ====
section
/-! SUPPORT. What each shared operation can do, said once: operands, errors, rotors, plugboard, wheels, sending a word. -/

namespace Sys2Proof.Machine

/-! ### Register files -/

theorem set_at {α : Type} {n : Nat} (v : Vector α n) (i : Fin n) (x : α) : (v.set i x)[i] = x := by simp

theorem set_other {α : Type} {n : Nat} (v : Vector α n) (i k : Fin n) (x : α) (h : k ≠ i) :
    (v.set i x)[k] = v[k] := by
  have : i.val ≠ k.val := fun same => h (Fin.ext same.symm)
  simp [this]

theorem set_get {α : Type} {n : Nat} (v : Vector α n) (i k : Fin n) (x : α) :
    (v.set i x)[k] = if k = i then x else v[k] := by
  by_cases h : k = i
  · subst h; simp
  · rw [set_other v i k x h, if_neg h]

theorem set_comm {α : Type} {n : Nat} (v : Vector α n) (i k : Fin n) (x y : α) (h : i ≠ k) :
    (v.set i x).set k y = (v.set k y).set i x := by
  have : i.val ≠ k.val := fun same => h (Fin.ext same)
  ext j hj
  simp only [Vector.getElem_set]
  split <;> split <;> simp_all

theorem set_same {α : Type} {n : Nat} (v : Vector α n) (i : Fin n) (x : α) (h : v[i] = x) : v.set i x = v := by
  subst h
  ext j hj
  simp only [Vector.getElem_set]
  split
  · next same => subst same; rfl
  · rfl

theorem ext_of_get {α : Type} {n : Nat} {v u : Vector α n} (h : ∀ k : Fin n, v[k] = u[k]) : v = u := by
  ext j hj
  exact h ⟨j, hj⟩

/-! ### Operands -/

theorem mod26_val (a : Int) : ((mod26 a).val : Int) = a % 26 := by
  simp only [mod26, Fin.ofNat]
  omega

@[simp] theorem letterOperand_letter (x : Letter) : letterOperand x.val = some x := by
  simp [letterOperand, x.isLt]

theorem letterOperand_none {v : Nat} (h : 26 ≤ v) : letterOperand v = none := by
  simp [letterOperand]
  omega

theorem letterOperand_eq_some {v : Nat} {x : Letter} : letterOperand v = some x ↔ x.val = v := by
  constructor
  · intro h
    unfold letterOperand at h
    split at h
    · cases h; rfl
    · cases h
  · rintro rfl
    exact letterOperand_letter x

theorem positionOperand_some {v : Nat} (h : 1 ≤ v ∧ v ≤ 26) : positionOperand v = some (BitVec.ofNat 5 (v - 1)) :=
  if_pos h

theorem positionOperand_lt {v : Nat} {p : BitVec 5} (h : positionOperand v = some p) : p.toNat < 26 := by
  unfold positionOperand at h
  split at h
  · cases h; simp; omega
  · cases h

theorem ringOperand_lt {v : Nat} {p : BitVec 5} (h : ringOperand v = some p) : p.toNat < 26 := by
  unfold ringOperand at h
  split at h
  · cases h; simp; omega
  · cases h

@[simp] theorem wheelOperand_wheel (w : Wheel) : wheelOperand w.val = some w := by
  simp [wheelOperand, w.isLt]

theorem wheelOperand_none {v : Nat} (h : 12 ≤ v) : wheelOperand v = none := by
  simp [wheelOperand]
  omega

theorem wheelOperand_eq_some {v : Nat} {w : Wheel} : wheelOperand v = some w ↔ w.val = v := by
  constructor
  · intro h
    unfold wheelOperand at h
    split at h
    · cases h; rfl
    · cases h
  · rintro rfl
    exact wheelOperand_wheel w

theorem wheelLen_pos (w : Wheel) : 0 < wheelLen[w] := by revert w; decide

theorem wheelLen_lt (w : Wheel) : wheelLen[w] < 64 := by revert w; decide

theorem wheelPositionOperand_some {w : Wheel} {p : Nat} (h : p < wheelLen[w]) :
    wheelPositionOperand w p = some (BitVec.ofNat 6 p) :=
  if_pos h

theorem wheelPositionOperand_lt {w : Wheel} {p : Nat} {q : BitVec 6} (h : wheelPositionOperand w p = some q) :
    q.toNat = p ∧ p < wheelLen[w] := by
  unfold wheelPositionOperand at h
  have := wheelLen_lt w
  split at h
  · next hp => cases h; exact ⟨by rw [BitVec.toNat_ofNat]; omega, hp⟩
  · cases h

/-! ### Table lookups -/

theorem rotorRom_lt {c : Config} {id : Nat} {r : RotorSpec} (h : rotorRom c id = some r) : id < 32 := by
  unfold rotorRom at h
  split at h <;> try omega
  split at h <;> [omega; cases h]

theorem reflRom_lt {c : Config} {id : Nat} {u : ReflSpec} (h : reflRom c id = some u) : id < 32 := by
  unfold reflRom at h
  split at h <;> try omega
  split at h <;> [omega; cases h]

/-! ### Ending a command -/

/-- Ending a command with a value: what it can do is one thing. -/
theorem finish_next {d : Nat} {s t : State} : finish d s = .next t ↔ t = s.respond .ok (BitVec.ofNat 6 d) := by
  simp [finish, eq_comm]

/-- Taking an error: what it can do is one thing. -/
theorem raiseError_next {st : Status} {s t : State} : raiseError st s = .next t ↔ t = s.respond st 0 := by
  simp [raiseError, eq_comm]

@[simp] theorem rspStatus_responseWord (st : Status) (d : BitVec 6) : rspStatus (responseWord st d) = statusCode st := by
  cases st <;> revert d <;> decide

@[simp] theorem rspData_responseWord (st : Status) (d : BitVec 6) : rspData (responseWord st d) = d := by
  cases st <;> revert d <;> decide

/-! ### Rotors -/

theorem rotate_get (e : EnigmaRegs) (s k : Slot) :
    (rotate e s).pos[k].toNat = if k = s then (e.pos[s].toNat + 1) % 26 else e.pos[k].toNat := by
  rw [rotate_pos, set_get]
  split
  · rw [BitVec.toNat_ofNat]; omega
  · rfl

theorem rotate_other (e : EnigmaRegs) (s k : Slot) (h : k ≠ s) : (rotate e s).pos[k] = e.pos[k] := by
  rw [rotate_pos, set_other _ _ _ _ h]

/-- The stepping sequence leaves everything of the unit but the positions. -/
theorem stepRotors_frame (k : Stack) (e : EnigmaRegs) :
    (stepRotors k e).ring = e.ring ∧ (stepRotors k e).selv = e.selv ∧ (stepRotors k e).sel = e.sel ∧
      (stepRotors k e).refv = e.refv ∧ (stepRotors k e).ref = e.ref ∧ (stepRotors k e).plug = e.plug := by
  unfold stepRotors
  dsimp only
  split <;> [skip; split] <;> exact ⟨rfl, rfl, rfl, rfl, rfl, rfl⟩

/-- Where the stepping sequence puts each slot. -/
theorem stepRotors_get (k : Stack) (e : EnigmaRegs) :
    let c := atNotch k.centre e Slot.centre
    let r := atNotch k.right e Slot.right
    (stepRotors k e).pos[Slot.right].toNat = (e.pos[Slot.right].toNat + 1) % 26 ∧
      (stepRotors k e).pos[Slot.centre].toNat =
        (if c || r then (e.pos[Slot.centre].toNat + 1) % 26 else e.pos[Slot.centre].toNat) ∧
      (stepRotors k e).pos[Slot.left].toNat =
        (if c then (e.pos[Slot.left].toNat + 1) % 26 else e.pos[Slot.left].toNat) ∧
      (stepRotors k e).pos[Slot.fourth] = e.pos[Slot.fourth] := by
  have distinct : Slot.right ≠ Slot.centre ∧ Slot.right ≠ Slot.left ∧ Slot.centre ≠ Slot.left ∧
      Slot.fourth ≠ Slot.right ∧ Slot.fourth ≠ Slot.centre ∧ Slot.fourth ≠ Slot.left := by decide
  obtain ⟨rc, rl, cl, fr, fc, fl⟩ := distinct
  intro c r
  have hc : atNotch k.centre e Slot.centre = c := rfl
  have hr : atNotch k.right e Slot.right = r := rfl
  unfold stepRotors
  rw [hc, hr]
  cases c <;> cases r <;>
    simp only [rotate_get, rotate_other, Bool.false_eq_true, if_true, if_false, Bool.or_true, Bool.or_false,
      rc, rl, cl, rc.symm, rl.symm, cl.symm, fr, fc, fl, ne_eq, not_false_eq_true, and_self]

theorem stepRotors_normalised (k : Stack) (e : EnigmaRegs) (h : PositionsNormalised e) :
    PositionsNormalised (stepRotors k e) := by
  have frame := stepRotors_frame k e
  have get := stepRotors_get k e
  intro s
  rw [frame.1]
  refine ⟨?_, (h s).2⟩
  have h0 := (h Slot.right).1
  have h1 := (h Slot.centre).1
  have h2 := (h Slot.left).1
  have h3 := (h Slot.fourth).1
  obtain ⟨g0, g1, g2, g3⟩ := get
  rw [← g3] at h3
  have cases4 : s = Slot.right ∨ s = Slot.centre ∨ s = Slot.left ∨ s = Slot.fourth := by revert s; decide
  rcases cases4 with rfl | rfl | rfl | rfl
  · omega
  · split at g1 <;> omega
  · split at g2 <;> omega
  · exact h3

/-- On a configured unit whose selections have table entries, the tables an `EENC` needs are there. -/
theorem stackFor_of_configured {c : Config} {e : EnigmaRegs} {f : Bool} (h : configured e f = true)
    (exists_ : SelectionsExist c e) : ∃ k, stackFor c e f = some k := by
  simp only [configured, Bool.and_eq_true, Bool.or_eq_true, Bool.not_eq_true'] at h
  obtain ⟨⟨⟨⟨h0, h1⟩, h2⟩, hr⟩, h3⟩ := h
  obtain ⟨r0, e0⟩ := Option.isSome_iff_exists.mp (exists_.1 _ h0)
  obtain ⟨r1, e1⟩ := Option.isSome_iff_exists.mp (exists_.1 _ h1)
  obtain ⟨r2, e2⟩ := Option.isSome_iff_exists.mp (exists_.1 _ h2)
  obtain ⟨u, eu⟩ := Option.isSome_iff_exists.mp (exists_.2 hr)
  cases f
  · exact ⟨⟨r0, r1, r2, none, u⟩, by simp only [stackFor, rotorIn, reflectorIn, h0, h1, h2, hr, e0, e1, e2, eu]; rfl⟩
  · have h3 : e.selv[Slot.fourth] = true := by rcases h3 with h3 | h3 <;> [cases h3; exact h3]
    obtain ⟨r3, e3⟩ := Option.isSome_iff_exists.mp (exists_.1 _ h3)
    exact ⟨⟨r0, r1, r2, some r3, u⟩, by
      simp only [stackFor, rotorIn, reflectorIn, h0, h1, h2, h3, hr, e0, e1, e2, e3, eu]; rfl⟩

/-- The tables an `EENC` uses are those of the selected ids. -/
theorem stackFor_tables {c : Config} {e : EnigmaRegs} {f : Bool} {k : Stack} (h : stackFor c e f = some k) :
    rotorIn c e Slot.right = some k.right ∧ rotorIn c e Slot.centre = some k.centre ∧
      rotorIn c e Slot.left = some k.left ∧ reflectorIn c e = some k.refl ∧
      (f = true → rotorIn c e Slot.fourth = k.fourth) ∧ (f = false → k.fourth = none) := by
  unfold stackFor at h
  split at h
  · next r0 r1 r2 u e0 e1 e2 eu =>
    split at h
    · next hf =>
      cases e3 : rotorIn c e Slot.fourth with
      | none => rw [e3] at h; cases h
      | some r3 => rw [e3] at h; cases h; simp [e0, e1, e2, eu, hf]
    · next hf => cases h; simp [e0, e1, e2, eu, hf]
  · cases h

/-! ### The plugboard -/

theorem plugPair_get (e : EnigmaRegs) (a b x : Letter) :
    (plugPair e a b).plug[x] = if x = b then some a else if x = a then some b else e.plug[x] := by
  rw [plugPair_plug, set_get, set_get]

theorem unplugLetter_unmapped {e : EnigmaRegs} {a : Letter} (h : e.plug[a] = none) : unplugLetter e a = e := by
  simp only [unplugLetter, h]

theorem unplugLetter_mapped {e : EnigmaRegs} {a b : Letter} (h : e.plug[a] = some b) :
    unplugLetter e a = { e with plug := (e.plug.set a none).set b none } := by
  simp only [unplugLetter, h]

theorem unplugLetter_get {e : EnigmaRegs} {a b : Letter} (h : e.plug[a] = some b) (x : Letter) :
    (unplugLetter e a).plug[x] = if x = b then none else if x = a then none else e.plug[x] := by
  rw [unplugLetter_mapped h, set_get, set_get]

/-- Removing a pair leaves everything of the unit but the plugboard. -/
theorem unplugLetter_frame (e : EnigmaRegs) (a : Letter) :
    (unplugLetter e a).pos = e.pos ∧ (unplugLetter e a).ring = e.ring ∧ (unplugLetter e a).selv = e.selv ∧
      (unplugLetter e a).sel = e.sel ∧ (unplugLetter e a).refv = e.refv ∧ (unplugLetter e a).ref = e.ref := by
  unfold unplugLetter
  split <;> exact ⟨rfl, rfl, rfl, rfl, rfl, rfl⟩

/-- Adding a pair of two different letters, neither mapped elsewhere, keeps the plugboard paired. -/
theorem plugPair_keeps_paired {e : EnigmaRegs} {a b : Letter} (h : PlugboardPaired e) (ab : a ≠ b)
    (ha : e.plug[a] = none ∨ e.plug[a] = some b) (hb : e.plug[b] = none ∨ e.plug[b] = some a) :
    PlugboardPaired (plugPair e a b) := by
  intro x y hxy
  rw [plugPair_get] at hxy ⊢
  split at hxy
  · next same => cases hxy; subst same; simp [ab, ab.symm]
  · next xb =>
    split at hxy
    · next same => cases hxy; subst same; simp [ab]
    · next xa =>
      obtain ⟨back, ne⟩ := h x y hxy
      have yb : y ≠ b := by
        rintro rfl
        rcases hb with hb | hb <;> rw [back] at hb <;> cases hb
        exact xa rfl
      have ya : y ≠ a := by
        rintro rfl
        rcases ha with ha | ha <;> rw [back] at ha <;> cases ha
        exact xb rfl
      simp [yb, ya, back, ne]

/-- Removing a pair keeps the plugboard paired. -/
theorem unplugLetter_keeps_paired {e : EnigmaRegs} (a : Letter) (h : PlugboardPaired e) :
    PlugboardPaired (unplugLetter e a) := by
  cases ha : e.plug[a] with
  | none => rw [unplugLetter_unmapped ha]; exact h
  | some b =>
    intro x y hxy
    rw [unplugLetter_get ha] at hxy ⊢
    split at hxy
    · cases hxy
    · next xb =>
      split at hxy
      · cases hxy
      · next xa =>
        obtain ⟨back, ne⟩ := h x y hxy
        have yb : y ≠ b := by
          rintro rfl
          have := (h a y ha).1
          rw [back] at this
          cases this
          exact xa rfl
        have ya : y ≠ a := by
          rintro rfl
          rw [ha] at back
          cases back
          exact xb rfl
        simp [yb, ya, back, ne]

/-! ### Wheels -/

theorem rotateWheel_get (l : LorenzRegs) (w k : Wheel) :
    (rotateWheel l w).pos[k].toNat = if k = w then (l.pos[w].toNat + 1) % wheelLen[w] else l.pos[k].toNat := by
  rw [rotateWheel_pos, set_get]
  split
  · have h := Nat.mod_lt (l.pos[w].toNat + 1) (wheelLen_pos w)
    have := wheelLen_lt w
    rw [BitVec.toNat_ofNat]
    omega
  · rfl

/-- Rotating a list of different wheels moves each of them one place and no other. -/
theorem rotateWheels_get (ws : List Wheel) (distinct : ws.Nodup) (l : LorenzRegs) (k : Wheel) :
    (rotateWheels l ws).pos[k].toNat = if k ∈ ws then (l.pos[k].toNat + 1) % wheelLen[k] else l.pos[k].toNat := by
  induction ws generalizing l with
  | nil => simp [rotateWheels]
  | cons w ws ih =>
    have hw := List.nodup_cons.mp distinct
    have unfold_ : rotateWheels l (w :: ws) = rotateWheels (rotateWheel l w) ws := rfl
    rw [unfold_, ih hw.2]
    by_cases same : k = w
    · subst same
      rw [if_neg hw.1, rotateWheel_get, if_pos rfl, if_pos List.mem_cons_self]
    · simp only [rotateWheel_get, List.mem_cons, same, false_or, if_false]

theorem wheelsInRange_iff (l : LorenzRegs) : wheelsInRange l = true ↔ WheelsNormalised l := by
  simp only [wheelsInRange, decide_eq_true_eq]

theorem rotateWheel_normalised {l : LorenzRegs} (w : Wheel) (h : WheelsNormalised l) :
    WheelsNormalised (rotateWheel l w) := by
  intro k
  rw [rotateWheel_get]
  split
  · next same => subst same; exact Nat.mod_lt _ (wheelLen_pos k)
  · exact h k

theorem rotateWheels_normalised (ws : List Wheel) {l : LorenzRegs} (h : WheelsNormalised l) :
    WheelsNormalised (rotateWheels l ws) := by
  induction ws generalizing l with
  | nil => exact h
  | cons w ws ih => exact ih (rotateWheel_normalised w h)

theorem stepWheels_normalised (c : Config) {l : LorenzRegs} (h : WheelsNormalised l) :
    WheelsNormalised (stepWheels c l) := by
  have h1 := rotateWheel_normalised 5 (rotateWheels_normalised [0, 1, 2, 3, 4] h)
  have h2 := rotateWheel_normalised 6 h1
  unfold stepWheels
  dsimp only
  generalize rotateWheel (rotateWheels l [0, 1, 2, 3, 4]) 5 = l1 at h1 h2 ⊢
  have h3 : WheelsNormalised (if camState c.cams l1 5 = true then rotateWheel l1 6 else l1) := by
    split <;> assumption
  generalize (if camState c.cams l1 5 = true then rotateWheel l1 6 else l1) = l2 at h3 ⊢
  cases c.m2Sample <;> dsimp only <;> split <;> first | exact rotateWheels_normalised _ h3 | exact h3

/-! ### Sending a word -/

/-- A word that decodes runs its command on the state with the port as it was. -/
theorem step_present {c : CommandWord} {i : Instr} (h : decode c = .ok i) (s : State) :
    step (s.present c) = exec i s := by
  simp only [step, State.present, State.takeInput, h, List.tail_cons]

theorem step_present_illegal {c : CommandWord} {why : DecodeError} (h : decode c = .error why) (s : State) :
    step (s.present c) = .next (s.respond .illegalCommand 0) := by
  simp only [step, State.present, State.takeInput, h, List.tail_cons, illegalCommand, raiseError]

theorem send_of_decode {c : CommandWord} {i : Instr} (h : decode c = .ok i) {s t : State} {r : ResponseWord}
    (next : exec i s = .next t) (answer : t.rsp = some r) : send c s = some (t, r) := by
  simp only [send, step_present h, next, answer, Option.map_some]

theorem send_illegal {c : CommandWord} {why : DecodeError} (h : decode c = .error why) (s : State) :
    send c s = some (s.respond .illegalCommand 0, responseWord .illegalCommand 0) := by
  simp only [send, step_present_illegal h, respond_rsp, Option.map_some]

@[simp] theorem transact_nil (s : State) : transact [] s = some (s, []) := rfl

theorem transact_cons {c : CommandWord} {cs : List CommandWord} {s t u : State} {r : ResponseWord}
    {rs : List ResponseWord} (one : send c s = some (t, r)) (rest : transact cs t = some (u, rs)) :
    transact (c :: cs) s = some (u, r :: rs) := by
  simp only [transact, one, rest, Option.map_some]

/-- What a non-empty transaction consists of. -/
theorem transact_cons_inv {c : CommandWord} {cs : List CommandWord} {s u : State} {rs : List ResponseWord}
    (h : transact (c :: cs) s = some (u, rs)) :
    ∃ t r qs, send c s = some (t, r) ∧ transact cs t = some (u, qs) ∧ rs = r :: qs := by
  unfold transact at h
  split at h
  · cases h
  · next t r one =>
    cases rest : transact cs t with
    | none => rw [rest] at h; cases h
    | some out =>
      rw [rest] at h
      simp only [Option.map_some, Option.some.injEq, Prod.mk.injEq] at h
      exact ⟨t, r, out.2, one, by rw [rest, ← h.1], h.2.symm⟩

end Sys2Proof.Machine
end

