-- ==== Sys2Proof/Laws/Exec.lean ====
section
/-! SUPPORT. What any command can do, said once: it answers `OK`, or it takes one of the two errors a command can raise. -/

namespace Sys2Proof.Machine

/-- The three ways a command's own rule ends when it answers a next state. -/
abbrev Answers (s t : State) : Prop :=
  (∃ d, t.rsp = some (responseWord .ok d)) ∨ t = s.respond .configurationError 0 ∨ t = s.respond .invalidInputError 0

theorem answers_finish {d : Nat} {s t u : State} (h : finish d u = .next t) : Answers s t := by
  rw [finish_next.mp h]
  exact .inl ⟨_, rfl⟩

theorem answers_configurationError {s t : State} (h : raiseError .configurationError s = .next t) : Answers s t :=
  .inr (.inl (raiseError_next.mp h))

theorem answers_invalidInputError {s t : State} (h : raiseError .invalidInputError s = .next t) : Answers s t :=
  .inr (.inr (raiseError_next.mp h))

/-- Whatever the command and the state, a next state carries the answer `OK`, or is the state with one of the two errors
presented and nothing else changed. -/
theorem exec_answers {i : Instr} {s t : State} (h : exec i s = .next t) : Answers s t := by
  cases i <;>
    simp only [exec, execErst, execEsel, execEpos, execEring, execErefl, execEplug, execEunplug, execEenc, execErdpos,
      execLrst, execLpos, execLenc, execLrdpos] at h <;>
    (repeat' (split at h)) <;>
    first
    | exact answers_finish h
    | exact answers_configurationError h
    | exact answers_invalidInputError h
    | cases h

/-- `EENC` of a letter on a configured unit whose tables are there. -/
theorem exec_eenc {s : State} {f : Bool} (x : Letter) {k : Stack} (h : configured s.e f = true)
    (tables : stackFor s.cfg s.e f = some k) :
    exec (.eenc f x.val) s =
      .next ((s.withEnigma (stepRotors k s.e)).respond .ok (BitVec.ofNat 6 (path k (stepRotors k s.e) x).val)) := by
  simp only [exec, execEenc, h, if_true, letterOperand_letter, tables]
  rfl

/-- `LENC` with every wheel in its range. -/
theorem exec_lenc {s : State} (u : CodeUnit) (h : WheelsNormalised s.l) :
    exec (.lenc u) s =
      .next ((s.withLorenz (stepWheels s.cfg s.l)).respond .ok
        (BitVec.ofNat 6 (u ^^^ keystream s.cfg.cams s.l).toNat)) := by
  simp only [exec, execLenc, (wheelsInRange_iff _).mpr h, if_true]
  rfl

end Sys2Proof.Machine
end

