-- ==== Sys2Proof/Laws/PerInstr.lean ====
section
/-! SUPPORT. The family RowHit: the word of every well-formed command matches its own row of the opcode map. -/

namespace Sys2Proof.Laws.RowHit

/-- The encoded word satisfies `(c and mask) = match` of the command's own row (30_encoding.md R73). -/
def Statement (i : Instr) : Prop := i.WellFormed → (rowOf i).hits (encode i) = true

theorem erst : Statement .erst := fun _ => by decide

theorem esel (slot : Slot) (id : Nat) : Statement (.esel slot id) := by
  intro h
  simp only [Instr.WellFormed, Instr.wellFormed, decide_eq_true_eq] at h
  revert slot
  revert id
  decide

theorem epos (slot : Slot) (pos : Nat) : Statement (.epos slot pos) := by
  intro h
  simp only [Instr.WellFormed, Instr.wellFormed, decide_eq_true_eq] at h
  revert slot
  revert pos
  decide

theorem ering (slot : Slot) (ring : Nat) : Statement (.ering slot ring) := by
  intro h
  simp only [Instr.WellFormed, Instr.wellFormed, decide_eq_true_eq] at h
  revert slot
  revert ring
  decide

theorem erefl (id : Nat) : Statement (.erefl id) := by
  intro h
  simp only [Instr.WellFormed, Instr.wellFormed, decide_eq_true_eq] at h
  revert id
  decide

theorem eplug (a b : Nat) : Statement (.eplug a b) := by
  intro h
  simp only [Instr.WellFormed, Instr.wellFormed, Bool.and_eq_true, decide_eq_true_eq] at h
  have all : ∀ a < 32, ∀ b < 32, (rowOf (.eplug a b)).hits (encode (.eplug a b)) = true := by decide +kernel
  exact all a h.1 b h.2

theorem eunplug (a : Nat) : Statement (.eunplug a) := by
  intro h
  simp only [Instr.WellFormed, Instr.wellFormed, decide_eq_true_eq] at h
  revert a
  decide

theorem eenc (f : Bool) (x : Nat) : Statement (.eenc f x) := by
  intro h
  simp only [Instr.WellFormed, Instr.wellFormed, decide_eq_true_eq] at h
  revert f
  revert x
  decide

theorem erdpos (slot : Slot) : Statement (.erdpos slot) := by
  intro _
  revert slot
  decide

theorem lrst : Statement .lrst := fun _ => by decide

theorem lpos (wheel p : Nat) : Statement (.lpos wheel p) := by
  intro h
  simp only [Instr.WellFormed, Instr.wellFormed, Bool.and_eq_true, decide_eq_true_eq] at h
  have all : ∀ w < 16, ∀ p < 64, (rowOf (.lpos w p)).hits (encode (.lpos w p)) = true := by decide +kernel
  exact all wheel h.1 p h.2

theorem lenc (u : CodeUnit) : Statement (.lenc u) := by
  intro _
  revert u
  decide

theorem lrdpos (wheel : Nat) : Statement (.lrdpos wheel) := by
  intro h
  simp only [Instr.WellFormed, Instr.wellFormed, decide_eq_true_eq] at h
  revert wheel
  decide

end Sys2Proof.Laws.RowHit
end

