-- ==== Sys2Proof/Tests/Slice0.lean ====
section
/-! SUPPORT. Tests on words, operands and single steps, with expected values from spec/, and a witness for the hypotheses of each statement. -/

namespace Sys2Proof.Tests

open Sys2Proof Sys2Proof.Machine

/-! ### WellFormed refuses an operand that does not fit its field (30_encoding.md R71, R72) -/

theorem test_wf_esel : (Instr.esel 0 32).wellFormed = false ∧ (Instr.esel 3 31).wellFormed = true := by decide
theorem test_wf_epos : (Instr.epos 0 32).wellFormed = false ∧ (Instr.epos 0 0).wellFormed = true := by decide
theorem test_wf_ering : (Instr.ering 0 32).wellFormed = false ∧ (Instr.ering 0 31).wellFormed = true := by decide
theorem test_wf_erefl : (Instr.erefl 32).wellFormed = false ∧ (Instr.erefl 31).wellFormed = true := by decide
theorem test_wf_eplug : (Instr.eplug 32 0).wellFormed = false ∧ (Instr.eplug 0 32).wellFormed = false := by decide
theorem test_wf_eunplug : (Instr.eunplug 32).wellFormed = false ∧ (Instr.eunplug 31).wellFormed = true := by decide
theorem test_wf_eenc : (Instr.eenc true 32).wellFormed = false ∧ (Instr.eenc true 31).wellFormed = true := by decide
theorem test_wf_lpos : (Instr.lpos 16 0).wellFormed = false ∧ (Instr.lpos 0 64).wellFormed = false := by decide
theorem test_wf_lrdpos : (Instr.lrdpos 16).wellFormed = false ∧ (Instr.lrdpos 15).wellFormed = true := by decide

/-! ### Decoding: every constructor from a word of 30_encoding.md section 9, as numbers and bit by bit -/

theorem test_decode_erst : decode 0b0001_000000000000 = .ok .erst := by decide
theorem test_decode_esel : decode 0b0010_01_00000_00001 = .ok (.esel Slot.centre 1) := by decide
theorem test_decode_epos : decode 0b0011_01_00000_00100 = .ok (.epos Slot.centre 4) := by decide
theorem test_decode_ering : decode 0b0100_10_00000_00110 = .ok (.ering Slot.left 6) := by decide
theorem test_decode_erefl : decode 0b0101_000000_0_00000 = .ok (.erefl 0) := by decide
theorem test_decode_eplug : decode 0b0110_00_10010_10011 = .ok (.eplug 18 19) := by decide
theorem test_decode_eunplug : decode 0b0111_000000_0_10010 = .ok (.eunplug 18) := by decide
theorem test_decode_eenc : decode 0b1000_000000_1_10000 = .ok (.eenc true 16) := by decide
theorem test_decode_erdpos : decode 0b1001_10_00000_00000 = .ok (.erdpos Slot.left) := by decide
theorem test_decode_lrst : decode 0b1010_000000000000 = .ok .lrst := by decide
theorem test_decode_lpos : decode 0b1011_0101_00_111100 = .ok (.lpos 5 60) := by decide
theorem test_decode_lenc : decode 0b1100_000000_0_10011 = .ok (.lenc 19) := by decide
theorem test_decode_lrdpos : decode 0b1101_1011_00_000000 = .ok (.lrdpos 11) := by decide

/-- The words of 95_test_vectors.md section 2.8 with reserved opcodes. -/
theorem test_decode_reserved :
    [0x0000, 0x0FFF, 0xE000, 0xF123, 0xFFFF].all (fun c => decode c == .error .reservedOpcode) = true := by decide

/-- The words of 95_test_vectors.md section 2.8 with a must-be-zero bit set. -/
theorem test_decode_mustBeZero :
    [0x1001, 0x1800, 0x2020, 0x2200, 0x3020, 0x4100, 0x5020, 0x5800, 0x6400, 0x6800, 0x7020, 0x8040, 0x8800, 0x9001,
      0x901F, 0x9020, 0xA001, 0xB040, 0xB080, 0xC020, 0xC040, 0xD001, 0xD03F, 0xD040].all
        (fun c => decode c == .error .mustBeZeroBitSet) = true := by decide

theorem test_encode : encode (.eplug 18 19) = 0x6253 ∧ encode (.lpos 5 60) = 0xB53C ∧ encode (.eenc true 16) = 0x8030 := by
  decide

theorem test_tableWord : decodeTableWord 16 0xDB00 = some (.lrdpos 11) ∧ decodeTableWord 16 0xE000 = none := by decide

/-! ### A small configured machine -/

/-- A row of `CAM_TEST` (95_test_vectors.md section 4). -/
def camTestRow (w : Wheel) : List Bool :=
  (List.range wheelLen[w]).map fun i => decide (((i + 1) * (w.val + 2)) % 17 < 7)

/-- `CAM_TEST` (95_test_vectors.md section 4). -/
def camTest : CamTable where
  pattern := #v[camTestRow 0, camTestRow 1, camTestRow 2, camTestRow 3, camTestRow 4, camTestRow 5, camTestRow 6,
    camTestRow 7, camTestRow 8, camTestRow 9, camTestRow 10, camTestRow 11]
  lengths := by decide

/-- Reset, with `CAM_TEST`. -/
def blankMachine : State := { State.reset with cfg := defaultConfig camTest }

/-- Rotors I, II, III in slots 0, 1, 2, rotor I in slot 3, UKW-B, at given positions. -/
def enigmaAt (right centre left fourth : BitVec 5) : State :=
  { blankMachine with
    e := { EnigmaRegs.reset with
      pos := #v[right, centre, left, fourth]
      selv := #v[true, true, true, true]
      sel := #v[0, 1, 2, 0]
      refv := true } }

/-- S and T plugged, as after `EPLUG 'S','T'`. -/
def plugged : State :=
  { blankMachine with e := { EnigmaRegs.reset with plug := ((Vector.replicate 26 none).set 18 (some 19)).set 19 (some 18) } }

/-- Wheels at given positions, `CAM_TEST`, and a value of `M2_SAMPLE`. -/
def lorenzAt (m : M2Sample) (pos : Vector (BitVec 6) 12) : State :=
  { blankMachine with cfg := { blankMachine.cfg with m2Sample := m }, l := ⟨pos⟩ }

/-- The response and a test of the next state; `false` when the step does not complete. -/
def answers (r : Result) (response : Nat) (test : State → Bool) : Bool :=
  match r with
  | .next t => decide (t.rsp.map BitVec.toNat = some response) && test t
  | .fault _ => false
  | .refused _ => false

/-- The step on a command word at the port. -/
def stepWord (s : State) (c : CommandWord) : Result := step (s.present c)

/-! ### One step of each command (expected values: 95_test_vectors.md) -/

theorem test_erst : answers (stepWord (enigmaAt 16 3 0 4) 0x1000) 0x00 (fun t => t.e == EnigmaRegs.reset) = true := by
  decide

theorem test_esel : answers (stepWord blankMachine 0x2401) 0x00 (fun t => t.e.selv[1] && t.e.sel[1] == 1) = true := by
  decide
theorem test_esel_absent : answers (stepWord blankMachine 0x2003) 0x40 (fun t => t.e == blankMachine.e) = true := by
  decide

theorem test_epos_last : answers (stepWord blankMachine 0x301A) 0x00 (fun t => t.e.pos[0] == 25) = true := by decide
theorem test_epos_range :
    answers (stepWord blankMachine 0x3000) 0x40 (fun _ => true) &&
      answers (stepWord blankMachine 0x301B) 0x40 (fun _ => true) = true := by decide

theorem test_ering : answers (stepWord blankMachine 0x4419) 0x00 (fun t => t.e.ring[1] == 25) = true := by decide
theorem test_ering_range : answers (stepWord blankMachine 0x441A) 0x40 (fun t => t.e.ring[1] == 0) = true := by decide

theorem test_erefl : answers (stepWord blankMachine 0x5000) 0x00 (fun t => t.e.refv && t.e.ref == 0) = true := by decide
theorem test_erefl_absent : answers (stepWord blankMachine 0x5001) 0x40 (fun t => !t.e.refv) = true := by decide

theorem test_eplug :
    answers (stepWord blankMachine 0x6253) 0x00 (fun t => t.e.plug[18] == some 19 && t.e.plug[19] == some 18) = true := by
  decide
theorem test_eplug_taken :
    answers (stepWord plugged 0x6244) 0x40 (fun t => t.e == plugged.e) &&
      answers (stepWord plugged 0x6272) 0x00 (fun t => t.e == plugged.e) = true := by decide

theorem test_eunplug : answers (stepWord plugged 0x7013) 0x00 (fun t => t.e == EnigmaRegs.reset) = true := by decide
theorem test_eunplug_nonLetter : answers (stepWord plugged 0x701A) 0x40 (fun t => t.e == plugged.e) = true := by decide

/-- Golden vector 1, first letter, and the order of the two errors. -/
theorem test_eenc : answers (stepWord (enigmaAt 0 0 0 0) 0x8000) 0x05 (fun t => t.e.pos == #v[1, 0, 0, 0]) = true := by
  decide
theorem test_eenc_errors :
    answers (stepWord blankMachine 0x801A) 0x40 (fun _ => true) &&
      answers (stepWord (enigmaAt 0 0 0 0) 0x801A) 0x80 (fun t => t.e.pos == #v[0, 0, 0, 0]) = true := by decide

theorem test_erdpos : answers (stepWord (enigmaAt 25 0 7 12) 0x9C00) 0x0C (fun _ => true) = true := by decide

theorem test_lrst : answers (stepWord (lorenzAt .after #v[1, 1, 1, 1, 1, 1, 1, 1, 1, 1, 1, 1]) 0xA000) 0x00
    (fun t => t.l == LorenzRegs.reset) = true := by decide

theorem test_lpos : answers (stepWord blankMachine 0xB53C) 0x00 (fun t => t.l.pos[5] == 60) = true := by decide
theorem test_lpos_range :
    answers (stepWord blankMachine 0xB417) 0x40 (fun _ => true) &&
      answers (stepWord blankMachine 0xBC00) 0x40 (fun _ => true) = true := by decide

/-- 95_test_vectors.md section 2.7, single-command vectors, first row: every Chi and Psi wheel wraps under `after`. -/
theorem test_lenc_after :
    answers (stepWord (lorenzAt .after #v[40, 30, 28, 25, 22, 8, 3, 42, 46, 50, 52, 58]) 0xC000) 0x04
      (fun t => t.l.pos == #v[0, 0, 0, 0, 0, 9, 4, 0, 0, 0, 0, 0]) = true := by decide
/-- The same row under `before`. -/
theorem test_lenc_before :
    answers (stepWord (lorenzAt .before #v[40, 30, 28, 25, 22, 8, 3, 42, 46, 50, 52, 58]) 0xC000) 0x04
      (fun t => t.l.pos == #v[0, 0, 0, 0, 0, 9, 4, 42, 46, 50, 52, 58]) = true := by decide

theorem test_lrdpos :
    answers (stepWord (lorenzAt .after #v[0, 0, 0, 0, 0, 60, 0, 0, 0, 0, 0, 0]) 0xD500) 0x3C (fun _ => true) &&
      answers (stepWord blankMachine 0xDC00) 0x40 (fun _ => true) = true := by decide

theorem test_illegal : answers (stepWord (enigmaAt 1 0 0 0) 0x8040) 0xC0 (fun t => t.e == (enigmaAt 1 0 0 0).e) = true := by
  decide

/-! ### Functions of the units (40_enigma_rotor.md worked table, 95_test_vectors.md) -/

theorem test_rotorTranslate :
    rotorTranslate rotorI 16 25 = 17 ∧ rotorTranslateReverse rotorI 16 17 = 25 ∧ rotorTranslate rotorIII 15 12 = 14 ∧
      rotorTranslateReverse rotorII 23 25 = 15 := by decide

/-- Double step (95_test_vectors.md section 2.5). -/
theorem test_doubleStep :
    answers (stepWord (enigmaAt 16 3 0 0) 0x8000) 0x19 (fun t => t.e.pos == #v[17, 4, 0, 0]) &&
      answers (stepWord (enigmaAt 17 4 0 0) 0x8000) 0x06 (fun t => t.e.pos == #v[18, 5, 1, 0]) = true := by decide

/-- The fourth rotor in the path (95_test_vectors.md section 2.6): rotor I at position 5, ring 2. -/
theorem test_fourthRotor :
    answers (stepWord { enigmaAt 0 0 0 4 with e := { (enigmaAt 0 0 0 4).e with ring := #v[0, 0, 0, 2] } } 0x8020) 12
      (fun t => t.e.pos == #v[1, 0, 0, 4]) = true := by decide

/-- "cam states [true,false,false,true,true] == 19" (20_memory.md R58). -/
theorem test_wheelsToByte : wheelsToByte true false false true true = 19 := by decide

/-- `rst` and a command cut by `rst` (70_reset_and_hazards.md R270). -/
theorem test_rst :
    (match step { plugged with inputs := [.commandCutByRst 0x2000, .rst], rsp := some 0 } with
      | .next t => decide (t = { blankMachine with inputs := [.rst] })
      | .fault _ => false
      | .refused _ => false) = true := by decide

/-- `EMSG` of a text that is not all letters is refused before anything is sent; a good one expands letter by letter
(30_encoding.md R80). -/
theorem test_emsg :
    expandPseudo (.emsg ['A', 'b'] false) = .error .invalidInputError ∧
      expandPseudo (.emsg ['A', 'Z'] true) = .ok [.eenc true 0, .eenc true 25] := by decide

/-- The historical ITA2 tables of 93_implementation_defined.md GK5, impulse 1 as the most significant bit (that order is
open, R223), without the entries that are no printing character. -/
def historicalTables : Ita2Tables where
  ltrs := #v[none, some 'T', none, some 'O', some ' ', some 'H', some 'N', some 'M', none, some 'L', some 'R',
    some 'G', some 'I', some 'P', some 'C', some 'V', some 'E', some 'Z', some 'D', some 'B',
    some 'S', some 'Y', some 'F', some 'X', some 'A', some 'W', some 'J', none, some 'U', some 'Q',
    some 'K', none]
  figs := #v[none, some '5', none, some '9', some ' ', none, some ',', some '.', none, some ')', some '4', none,
    some '8', some '0', some ':', some '=', some '3', some '+', none, some '?', some '\'', some '6',
    none, some '/', some '-', some '2', none, none, some '7', some '1', some '(', none]
  ltrsCode := 0b11111
  figsCode := 0b11011
  constraints := by decide
  alphabet := by decide

/-- A letter table without `Z` and figures without `0` are no tables of R222. -/
theorem test_ita2_alphabet :
    ita2Alphabet (historicalTables.ltrs.set 17 none) historicalTables.figs = false ∧
      ita2Alphabet historicalTables.ltrs (historicalTables.figs.set 13 none) = false ∧
      ita2Alphabet (historicalTables.ltrs.set 4 (some '1')) historicalTables.figs = false := by decide

/-- Shifts are emitted when the table changes (44_ita2_companion.md R224), swallowed or passed through (R225). -/
theorem test_ita2 :
    ita2Encode historicalTables ['A', '1', '1', 'B'] = .ok [24, 27, 29, 29, 31, 19] ∧
      ita2Decode historicalTables false [24, 27, 29, 29, 31, 19] = .ok [.char 'A', .char '1', .char '1', .char 'B'] ∧
      ita2Decode historicalTables true [27, 24] = .ok [.shift 27, .char '-'] ∧
      ita2Encode historicalTables ['A', '!'] = .error .invalidCharacter ∧
      ita2Decode historicalTables false [0] = .error .invalidCode := by decide

/-! ### Witnesses: a state and operands that meet every hypothesis of a statement -/

theorem inv_enigmaAt : (enigmaAt 16 3 0 4).Inv := by decide
theorem inv_plugged : plugged.Inv := by decide
theorem inv_lorenzAt : (lorenzAt .after #v[40, 30, 28, 25, 22, 60, 36, 42, 46, 50, 52, 58]).Inv := by decide

theorem witness_EncodingLayout : (Instr.lpos 15 63).WellFormed := by decide
theorem witness_DecodeEncodeRoundTrip : (Instr.eplug 31 31).WellFormed := by decide
theorem witness_EncodeDecodeRoundTrip : decode 0x8030 = .ok (.eenc true 16) := by decide
theorem witness_MaskAndMatchDecideTheCommand :
    rowLpos ∈ opcodeRows ∧ (0xB53C : CommandWord) &&& rowLpos.mask = rowLpos.pattern ∧
      (0xE000 : CommandWord).toNat / 4096 = 0xE := by decide
theorem witness_NonCommandsAnswerIllegalCommand :
    (blankMachine.present 0xF123).inputs = .command 0xF123 :: blankMachine.inputs ∧
      decode 0xF123 = .error .reservedOpcode ∧ decode 0x1001 = .error .mustBeZeroBitSet := by decide
theorem witness_StepRunsTheDecodedCommand :
    (Instr.lenc 19).WellFormed ∧
      (blankMachine.present 0xC013).inputs = .command (encode (.lenc 19)) :: blankMachine.inputs := by decide
theorem witness_NoInputNoChange : State.reset.inputs = [] := rfl
theorem witness_EveryWordIsAnswered :
    ((enigmaAt 16 3 0 4).present 0x8000).Inv ∧
      ((enigmaAt 16 3 0 4).present 0x8000).inputs = .command 0x8000 :: (enigmaAt 16 3 0 4).inputs := by decide
theorem witness_DeviceNeverStops : ((enigmaAt 16 3 0 4).present 0x8000).Inv := by decide
theorem witness_StepKeepsInvariants :
    (plugged.present 0x9000).Inv ∧ step (plugged.present 0x9000) = .next { plugged with rsp := some 0 } :=
  ⟨by decide, rfl⟩
theorem witness_TablesNeverChange : step (plugged.present 0x9000) = .next { plugged with rsp := some 0 } := rfl
theorem witness_RstGivesTheResetState :
    ({ plugged with inputs := [.rst] } : State).inputs = .rst :: [] ∧
      ({ plugged with inputs := [.commandCutByRst 0x8000] } : State).inputs = .commandCutByRst 0x8000 :: [] := ⟨rfl, rfl⟩
theorem witness_EselSelectsARotor :
    (rotorRom blankMachine.cfg 2).isSome = true ∧ rotorRom blankMachine.cfg 3 = none ∧
      rotorRom blankMachine.cfg 31 = none ∧
      exec .erst (enigmaAt 0 0 0 0) = .next { blankMachine with rsp := some 0 } ∧
      (enigmaAt 0 0 0 0).e.selv[(3 : Slot)] = true ∧ blankMachine.e.selv[(3 : Slot)] = false :=
  ⟨by decide, by decide, by decide, rfl, by decide, by decide⟩
theorem witness_EposSetsTheShownPosition :
    (1 ≤ 1 ∧ 1 ≤ 26) ∧ (1 ≤ 26 ∧ 26 ≤ 26) ∧ (27 = 0 ∨ 27 ≤ 27) ∧ ((0 : Nat) = 0 ∨ 27 ≤ 0) := by decide
theorem witness_EringSetsTheRing : 25 ≤ 25 ∧ 26 ≤ 26 := by decide
theorem witness_EreflSelectsAReflector :
    (reflRom blankMachine.cfg 0).isSome = true ∧ reflRom blankMachine.cfg 1 = none ∧ reflRom blankMachine.cfg 31 = none := by
  decide
theorem witness_ErdposReadsThePosition : 1 ≤ 26 ∧ 26 ≤ 26 := by decide
theorem witness_ConfigurationOrderDoesNotMatter :
    configRegisterOf (.esel 0 2) = some (.selector 0) ∧ configRegisterOf (.esel 1 2) = some (.selector 1) ∧
      ConfigRegister.selector 0 ≠ .selector 1 := by decide
theorem witness_TranslationFormulas :
    (((9 : Letter).val : Int) = (((19 : Letter).val : Int) + (normalizedPos (enigmaAt 16 3 0 4).e 0).val) % 26) ∧
      wir rotorI 0 = 4 := by decide
theorem witness_EplugAddsAPair :
    ((0 : Letter) ≠ 1 ∧ plugged.e.plug[(0 : Letter)] = none ∧ plugged.e.plug[(1 : Letter)] = none) ∧
      (plugged.e.plug[(18 : Letter)] = some 19 ∧ (19 : Letter) ≠ 4) ∧ (26 > 25) := by decide
theorem witness_EplugOrderAndRepetition : PlugboardPaired plugged.e ∧ plugged.e.plug[(18 : Letter)] = some 19 := by decide
theorem witness_EunplugRemovesThePair :
    PlugboardPaired plugged.e ∧ plugged.e.plug[(18 : Letter)] = some 19 ∧ plugged.e.plug[(0 : Letter)] = none ∧ 26 > 25 := by
  decide
theorem witness_PlugTranslateIsInvolutive : PlugboardPaired plugged.e := by decide
theorem witness_UnplugUndoesPlug :
    (0 : Letter) ≠ 1 ∧ plugged.e.plug[(0 : Letter)] = none ∧ plugged.e.plug[(1 : Letter)] = none := by decide
theorem witness_EencRefusals :
    ¬ (blankMachine.e.selv[Slot.right] = true) ∧
      (let e := (enigmaAt 0 0 0 0).e
       e.selv[Slot.right] = true ∧ e.selv[Slot.centre] = true ∧ e.selv[Slot.left] = true ∧ e.refv = true ∧
        e.selv[Slot.fourth] = true) ∧ 26 > 25 := by decide
/-- Every branch of the stepping rule: both notches, the centre one, the right one, none. -/
theorem witness_EencStepsTheRotors :
    ((enigmaAt 16 4 0 0).Inv ∧ configured (enigmaAt 16 4 0 0).e true = true ∧
      rotorRom (enigmaAt 16 4 0 0).cfg (enigmaAt 16 4 0 0).e.sel[Slot.right].toNat = some rotorI ∧
      rotorRom (enigmaAt 16 4 0 0).cfg (enigmaAt 16 4 0 0).e.sel[Slot.centre].toNat = some rotorII) ∧
    (∃ n ∈ rotorII.turnover, n.val = 4) ∧ (∀ n ∈ rotorII.turnover, n.val ≠ 3) ∧ (∃ n ∈ rotorI.turnover, n.val = 16) ∧
      (∀ n ∈ rotorI.turnover, n.val ≠ 15) := by decide
theorem witness_EencAnswersThePath :
    configured (enigmaAt 0 0 0 0).e false = true ∧ configured (enigmaAt 0 0 0 0).e true = true ∧
      rotorRom (enigmaAt 0 0 0 0).cfg (enigmaAt 0 0 0 0).e.sel[Slot.right].toNat = some rotorI ∧
      rotorRom (enigmaAt 0 0 0 0).cfg (enigmaAt 0 0 0 0).e.sel[Slot.centre].toNat = some rotorII ∧
      rotorRom (enigmaAt 0 0 0 0).cfg (enigmaAt 0 0 0 0).e.sel[Slot.left].toNat = some rotorIII ∧
      rotorRom (enigmaAt 0 0 0 0).cfg (enigmaAt 0 0 0 0).e.sel[Slot.fourth].toNat = some rotorI ∧
      reflRom (enigmaAt 0 0 0 0).cfg (enigmaAt 0 0 0 0).e.ref.toNat = some reflUkwB := by decide
theorem witness_PathIsInvolutive : PlugboardPaired plugged.e ∧ ∀ z : Letter, reflect reflUkwB z ≠ z := by decide
theorem witness_DoubleStep :
    (enigmaAt 16 3 0 0).Inv ∧ configured (enigmaAt 16 3 0 0).e false = true ∧
      rotorRom (enigmaAt 16 3 0 0).cfg (enigmaAt 16 3 0 0).e.sel[Slot.right].toNat = some rotorI ∧
      rotorRom (enigmaAt 16 3 0 0).cfg (enigmaAt 16 3 0 0).e.sel[Slot.centre].toNat = some rotorII ∧
      (∃ n ∈ rotorI.turnover, n.val = (enigmaAt 16 3 0 0).e.pos[Slot.right].toNat) ∧
      (∃ n ∈ rotorII.turnover, n.val = ((enigmaAt 16 3 0 0).e.pos[Slot.centre].toNat + 1) % 26) ∧
      (∀ n ∈ rotorII.turnover, n.val ≠ (enigmaAt 16 3 0 0).e.pos[Slot.centre].toNat) := by decide
theorem witness_SteppingIgnoresData :
    (enigmaAt 16 3 0 0).Inv ∧ configured (enigmaAt 16 3 0 0).e false = true ∧
      (transact ([(0 : Letter)].map fun x => encode (.eenc false x.val)) (enigmaAt 16 3 0 0)).isSome = true ∧
      (transact ([(7 : Letter)].map fun x => encode (.eenc true x.val)) (enigmaAt 16 3 0 0)).isSome = true := by decide
theorem witness_EnigmaSelfReciprocity : (enigmaAt 16 3 0 4).Inv ∧ configured (enigmaAt 16 3 0 4).e true = true := by decide
theorem witness_DeviceRealisesEncrypt :
    (enigmaAt 16 3 0 4).Inv ∧ configured (enigmaAt 16 3 0 4).e false = true ∧ configured blankMachine.e false = false ∧
      (∃ v ∈ [0, 26], v > 25) ∧ (∀ v ∈ [0, 25], v ≤ 25) := by decide
theorem witness_LposSetsAWheel :
    60 < wheelLen[(5 : Wheel)] ∧ 12 > 11 ∧ ((4 : Wheel).val = 4 ∧ wheelLen[(4 : Wheel)] ≤ 23) := by decide
theorem witness_LrdposReadsAWheel : 12 > 11 := by decide
theorem witness_LencXorsTheKeystream : (lorenzAt .before #v[40, 30, 28, 25, 22, 60, 36, 42, 46, 50, 52, 58]).Inv ∧
    (4 : Wheel).val = (4 : Fin 5).val ∧ (11 : Wheel).val = (4 : Fin 5).val + 7 := by decide
/-- Both values of each cam test, under both values of `M2_SAMPLE` (95_test_vectors.md section 4). -/
theorem witness_LencStepsTheWheels :
    (lorenzAt .after #v[0, 0, 0, 0, 0, 8, 3, 0, 0, 0, 0, 0]).Inv ∧ (lorenzAt .before #v[0, 0, 0, 0, 0, 8, 3, 0, 0, 0, 0, 0]).Inv ∧
      camAt camTest 5 9 = true ∧ camAt camTest 5 8 = false ∧ camAt camTest 6 4 = true ∧ camAt camTest 6 3 = false := by decide
theorem witness_SamplesAgreeWhenMotor2Rests :
    let s := lorenzAt .after #v[0, 0, 0, 0, 0, 0, 4, 0, 0, 0, 0, 0]
    WheelsNormalised s.l ∧ (stepWheels s.cfg s.l).pos[(6 : Wheel)] = s.l.pos[(6 : Wheel)] := by decide
theorem witness_WheelsAfterManyUnits :
    (lorenzAt .after #v[40, 30, 28, 25, 22, 60, 36, 42, 46, 50, 52, 58]).Inv ∧ [(0 : CodeUnit), 1].length = [(2 : CodeUnit), 3].length := by
  decide
theorem witness_LorenzRoundTrip : (lorenzAt .before #v[3, 1, 4, 1, 5, 9, 2, 6, 5, 3, 5, 8]).Inv := by decide
theorem witness_LloadSetsEveryWheel :
    ∀ w : Wheel, (#v[40, 30, 28, 25, 22, 60, 36, 42, 46, 50, 52, 58] : Vector Nat 12)[w] < wheelLen[w] := by decide
theorem witness_ConfigurationErrorCauses : plugged.Inv ∧ answers (exec (.eplug 18 4) plugged) 0x40 (fun _ => true) = true := by
  decide
theorem witness_InvalidInputErrorCauses :
    (enigmaAt 0 0 0 0).Inv ∧ answers (exec (.eenc false 26) (enigmaAt 0 0 0 0)) 0x80 (fun _ => true) = true := by decide
theorem witness_ErrorsWriteNothing :
    send 0x6244 plugged = some ({ plugged with rsp := some 0x40 }, 0x40) ∧ rspStatus 0x40 ≠ 0 := ⟨rfl, by decide⟩
theorem witness_RefusedCommandsLeaveNoTrace :
    transact [0x6244] plugged = some ({ plugged with rsp := some 0x40 }, [0x40]) ∧ rspStatus 0x40 ≠ 0 ∧
      transact [0x9000] plugged = some ({ plugged with rsp := some 0x00 }, [0x00]) := ⟨rfl, by decide, rfl⟩
theorem witness_UnitsAreIndependent :
    isEnigmaCommand (.erdpos 0) = true ∧ exec (.erdpos 0) plugged = .next { plugged with rsp := some 0 } ∧
      isEnigmaCommand (.lrdpos 0) = false ∧ exec (.lrdpos 0) plugged = .next { plugged with rsp := some 0 } :=
  ⟨rfl, rfl, rfl, rfl⟩
theorem witness_RegistersHaveTheirWriters :
    exec (.epos 1 2) plugged = .next { plugged with e := setShownPos plugged.e 1 1, rsp := some 0 } ∧
      (setShownPos plugged.e 1 1).pos[(1 : Slot)] ≠ plugged.e.pos[(1 : Slot)] := ⟨rfl, by decide⟩
theorem witness_EqualRegistersAnswerAlike :
    SameRegisters plugged { plugged with rsp := some 0xC0, inputs := [.rst] } ∧
      transact [0x9000] plugged = some ({ plugged with rsp := some 0x00 }, [0x00]) := ⟨⟨rfl, rfl, rfl⟩, rfl⟩
theorem witness_Ita2RoundTrip : ∀ ch ∈ ['A', '1', 'B'], supported historicalTables ch = true :=
  List.all_eq_true.mp (by decide)
theorem witness_Ita2VectorRoundTrip : 'Z' ∈ upperCase ∧ '9' ∈ digits := by decide
theorem witness_LorenzTextRoundTrip : ∀ ch ∈ ['B', '1', '1', 'A'], supported historicalTables ch = true :=
  List.all_eq_true.mp (by decide)

end Sys2Proof.Tests
end

/-! SUPPORT. The invariants: what holds at reset, and what each register update keeps (10_state.md R23, R24, R25, R27, R29). -/

namespace Sys2Proof.Machine

/-! ### The registers at reset -/

theorem enigmaReset_positionsNormalised : PositionsNormalised EnigmaRegs.reset := fun s => by simp

theorem enigmaReset_selectionsExist (c : Config) : SelectionsExist c EnigmaRegs.reset :=
  ⟨fun s selected => by simp at selected, fun selected => by simp at selected⟩

theorem enigmaReset_plugboardPaired : PlugboardPaired EnigmaRegs.reset := fun a b mapped => by simp at mapped

theorem lorenzReset_wheelsNormalised : WheelsNormalised LorenzRegs.reset := fun w => by
  simpa using wheelLen_pos w

theorem deviceReset_inv (s : State) : (deviceReset s).Inv :=
  ⟨enigmaReset_positionsNormalised, enigmaReset_selectionsExist s.cfg, enigmaReset_plugboardPaired,
    lorenzReset_wheelsNormalised⟩

/-! ### Register updates -/

theorem setShownPos_normalised {e : EnigmaRegs} {p : BitVec 5} (k : Slot) (h : PositionsNormalised e)
    (small : p.toNat < 26) : PositionsNormalised (setShownPos e k p) := by
  intro s
  rw [setShownPos_pos, setShownPos_ring, set_get]
  refine ⟨?_, (h s).2⟩
  split
  · exact small
  · exact (h s).1

theorem setRing_normalised {e : EnigmaRegs} {r : BitVec 5} (k : Slot) (h : PositionsNormalised e)
    (small : r.toNat < 26) : PositionsNormalised (setRing e k r) := by
  intro s
  rw [setRing_pos, setRing_ring, set_get]
  refine ⟨(h s).1, ?_⟩
  split
  · exact small
  · exact (h s).2

theorem selectRotor_selectionsExist {c : Config} {e : EnigmaRegs} {id : Nat} {r : RotorSpec} (k : Slot)
    (h : SelectionsExist c e) (present : rotorRom c id = some r) : SelectionsExist c (selectRotor e k id) := by
  refine ⟨fun s => ?_, h.2⟩
  rw [selectRotor_selv, selectRotor_sel, set_get, set_get]
  split
  · have stored : (BitVec.ofNat 5 id).toNat = id := Nat.mod_eq_of_lt (rotorRom_lt present)
    rw [stored, present]
    exact fun _ => rfl
  · exact h.1 s

theorem selectReflector_selectionsExist {c : Config} {e : EnigmaRegs} {id : Nat} {u : ReflSpec}
    (h : SelectionsExist c e) (present : reflRom c id = some u) : SelectionsExist c (selectReflector e id) := by
  have stored : (BitVec.ofNat 5 id).toNat = id := Nat.mod_eq_of_lt (reflRom_lt present)
  refine ⟨h.1, fun _ => ?_⟩
  rw [selectReflector_ref, stored, present]
  rfl

/-- The selections are only a matter of the selector registers. -/
theorem selectionsExist_congr {c : Config} {e e' : EnigmaRegs} (h : SelectionsExist c e) (selv : e'.selv = e.selv)
    (sel : e'.sel = e.sel) (refv : e'.refv = e.refv) (ref : e'.ref = e.ref) : SelectionsExist c e' := by
  rwa [SelectionsExist, selv, sel, refv, ref]

theorem plugTakenByOther_eq_false {e : EnigmaRegs} {x y : Letter} :
    plugTakenByOther e x y = false ↔ e.plug[x] = none ∨ e.plug[x] = some y := by
  unfold plugTakenByOther
  split <;> simp [*]

theorem setWheelPos_normalised {l : LorenzRegs} {w : Wheel} {q : BitVec 6} (h : WheelsNormalised l)
    (small : q.toNat < wheelLen[w]) : WheelsNormalised (setWheelPos l w q) := by
  intro k
  rw [setWheelPos_pos, set_get]
  split
  · next same => subst same; exact small
  · exact h k

end Sys2Proof.Machine

/-! SUPPORT. What a command and a step can do, said once: the registers a command writes under which test, and the ways a step can go. -/

namespace Sys2Proof.Machine

/-- `Writes s i u`: on `s` the command `i` can leave the registers of `u`, with the tests of its rule that lead there.
The response is not part of it. -/
inductive Writes (s : State) : Instr → State → Prop
  | nothing (i : Instr) : Writes s i s
  | erst : Writes s .erst (s.withEnigma EnigmaRegs.reset)
  | esel {slot : Slot} {id : Nat} {r : RotorSpec} (present : rotorRom s.cfg id = some r) :
      Writes s (.esel slot id) (s.withEnigma (selectRotor s.e slot id))
  | epos {slot : Slot} {pos : Nat} {p : BitVec 5} (operand : positionOperand pos = some p) :
      Writes s (.epos slot pos) (s.withEnigma (setShownPos s.e slot p))
  | ering {slot : Slot} {ring : Nat} {r : BitVec 5} (operand : ringOperand ring = some r) :
      Writes s (.ering slot ring) (s.withEnigma (setRing s.e slot r))
  | erefl {id : Nat} {u : ReflSpec} (present : reflRom s.cfg id = some u) :
      Writes s (.erefl id) (s.withEnigma (selectReflector s.e id))
  | eplug {x y : Letter} (different : x ≠ y) (freeX : plugTakenByOther s.e x y = false)
      (freeY : plugTakenByOther s.e y x = false) : Writes s (.eplug x.val y.val) (s.withEnigma (plugPair s.e x y))
  | eunplug (x : Letter) : Writes s (.eunplug x.val) (s.withEnigma (unplugLetter s.e x))
  | eenc {f : Bool} (x : Letter) {k : Stack} (selected : configured s.e f = true)
      (tables : stackFor s.cfg s.e f = some k) : Writes s (.eenc f x.val) (s.withEnigma (stepRotors k s.e))
  | lrst : Writes s .lrst (s.withLorenz LorenzRegs.reset)
  | lpos {w : Wheel} {p : Nat} {q : BitVec 6} (operand : wheelPositionOperand w p = some q) :
      Writes s (.lpos w.val p) (s.withLorenz (setWheelPos s.l w q))
  | lenc (u : CodeUnit) (inRange : WheelsNormalised s.l) : Writes s (.lenc u) (s.withLorenz (stepWheels s.cfg s.l))

/-- A command that answers leaves the registers of one of its `Writes`, with a response presented. -/
abbrev WritesAndAnswers (s : State) (i : Instr) (t : State) : Prop :=
  ∃ (u : State) (st : Status) (d : BitVec 6), Writes s i u ∧ t = u.respond st d

theorem writes_of_finish {s t u : State} {i : Instr} {d : Nat} (w : Writes s i u) (h : finish d u = .next t) :
    WritesAndAnswers s i t :=
  ⟨u, _, _, w, finish_next.mp h⟩

theorem writes_of_raiseError {s t : State} {i : Instr} {st : Status} (h : raiseError st s = .next t) :
    WritesAndAnswers s i t :=
  ⟨s, _, _, .nothing i, raiseError_next.mp h⟩

/-- Every command that answers wrote only what `Writes` names, and its tests held. -/
theorem exec_writes {i : Instr} {s t : State} (h : exec i s = .next t) : WritesAndAnswers s i t := by
  cases i with
  | erst => exact writes_of_finish .erst h
  | esel slot id =>
    simp only [exec, execEsel] at h
    split at h
    · exact writes_of_raiseError h
    · next present => exact writes_of_finish (.esel present) h
  | epos slot pos =>
    simp only [exec, execEpos] at h
    split at h
    · exact writes_of_raiseError h
    · next operand => exact writes_of_finish (.epos operand) h
  | ering slot ring =>
    simp only [exec, execEring] at h
    split at h
    · exact writes_of_raiseError h
    · next operand => exact writes_of_finish (.ering operand) h
  | erefl id =>
    simp only [exec, execErefl] at h
    split at h
    · exact writes_of_raiseError h
    · next present => exact writes_of_finish (.erefl present) h
  | eplug a b =>
    simp only [exec, execEplug] at h
    split at h
    · next x y ha hb =>
      obtain rfl := letterOperand_eq_some.mp ha
      obtain rfl := letterOperand_eq_some.mp hb
      split at h
      · exact writes_of_raiseError h
      · next different =>
        split at h
        · exact writes_of_raiseError h
        · next freeX =>
          split at h
          · exact writes_of_raiseError h
          · next freeY =>
            exact writes_of_finish
              (.eplug different (Bool.eq_false_of_not_eq_true freeX) (Bool.eq_false_of_not_eq_true freeY)) h
    · exact writes_of_raiseError h
  | eunplug a =>
    simp only [exec, execEunplug] at h
    split at h
    · exact writes_of_raiseError h
    · next x ha =>
      obtain rfl := letterOperand_eq_some.mp ha
      exact writes_of_finish (.eunplug x) h
  | eenc f x =>
    simp only [exec, execEenc] at h
    split at h
    · next selected =>
      split at h
      · exact writes_of_raiseError h
      · next x hx =>
        obtain rfl := letterOperand_eq_some.mp hx
        split at h
        · cases h
        · next tables => exact writes_of_finish (.eenc x selected tables) h
    · exact writes_of_raiseError h
  | erdpos slot => exact writes_of_finish (.nothing _) h
  | lrst => exact writes_of_finish .lrst h
  | lpos wheel p =>
    simp only [exec, execLpos] at h
    split at h
    · exact writes_of_raiseError h
    · next w hw =>
      obtain rfl := wheelOperand_eq_some.mp hw
      split at h
      · exact writes_of_raiseError h
      · next operand => exact writes_of_finish (.lpos operand) h
  | lenc u =>
    simp only [exec, execLenc] at h
    split at h
    · next inRange => exact writes_of_finish (.lenc u ((wheelsInRange_iff _).mp inRange)) h
    · cases h
  | lrdpos wheel =>
    simp only [exec, execLrdpos] at h
    split at h
    · exact writes_of_raiseError h
    · exact writes_of_finish (.nothing _) h

/-- The ways a step can go (30_encoding.md R70, R77; 70_reset_and_hazards.md R270). -/
inductive StepCase (s t : State) : Prop
  | idle (empty : s.inputs = []) (same : t = s)
  | command {c : CommandWord} {i : Instr} {rest : List HostEvent} (taken : s.inputs = .command c :: rest)
      (legal : decode c = .ok i) (next : exec i s.takeInput = .next t)
  | illegal {c : CommandWord} {why : DecodeError} {rest : List HostEvent} (taken : s.inputs = .command c :: rest)
      (bad : decode c = .error why) (same : t = s.takeInput.respond .illegalCommand 0)
  | rst {rest : List HostEvent} (taken : s.inputs = .rst :: rest) (same : t = deviceReset s.takeInput)
  | cut {c : CommandWord} {rest : List HostEvent} (taken : s.inputs = .commandCutByRst c :: rest)
      (same : t = deviceReset s.takeInput)

theorem step_cases {s t : State} (h : step s = .next t) : StepCase s t := by
  unfold step at h
  split at h
  · next empty => cases h; exact .idle empty rfl
  · next taken =>
    split at h
    · next legal => exact .command taken legal h
    · next bad => exact .illegal taken bad (raiseError_next.mp h)
  · next taken => cases h; exact .rst taken rfl
  · next taken => cases h; exact .cut taken rfl

/-! ### Every command and every step keeps the invariants -/

theorem Writes.keeps_inv {i : Instr} {s u : State} (w : Writes s i u) (h : s.Inv) : u.Inv := by
  obtain ⟨positions, selections, paired, wheels⟩ := h
  cases w with
  | nothing => exact ⟨positions, selections, paired, wheels⟩
  | erst =>
    exact ⟨enigmaReset_positionsNormalised, enigmaReset_selectionsExist s.cfg, enigmaReset_plugboardPaired, wheels⟩
  | esel present => exact ⟨positions, selectRotor_selectionsExist _ selections present, paired, wheels⟩
  | epos operand =>
    exact ⟨setShownPos_normalised _ positions (positionOperand_lt operand), selections, paired, wheels⟩
  | ering operand => exact ⟨setRing_normalised _ positions (ringOperand_lt operand), selections, paired, wheels⟩
  | erefl present => exact ⟨positions, selectReflector_selectionsExist selections present, paired, wheels⟩
  | eplug different freeX freeY =>
    exact ⟨positions, selections, plugPair_keeps_paired paired different (plugTakenByOther_eq_false.mp freeX)
      (plugTakenByOther_eq_false.mp freeY), wheels⟩
  | eunplug x =>
    obtain ⟨pos, ring, selv, sel, refv, ref⟩ := unplugLetter_frame s.e x
    refine ⟨?_, selectionsExist_congr selections selv sel refv ref, unplugLetter_keeps_paired x paired, wheels⟩
    rwa [withEnigma_e, PositionsNormalised, pos, ring]
  | @eenc f x k selected tables =>
    obtain ⟨-, selv, sel, refv, ref, plug⟩ := stepRotors_frame k s.e
    refine ⟨stepRotors_normalised k s.e positions, selectionsExist_congr selections selv sel refv ref, ?_, wheels⟩
    rwa [withEnigma_e, PlugboardPaired, plug]
  | lrst => exact ⟨positions, selections, paired, lorenzReset_wheelsNormalised⟩
  | lpos operand =>
    obtain ⟨stored, small⟩ := wheelPositionOperand_lt operand
    exact ⟨positions, selections, paired, setWheelPos_normalised wheels (stored ▸ small)⟩
  | lenc u inRange => exact ⟨positions, selections, paired, stepWheels_normalised s.cfg inRange⟩

theorem exec_keeps_inv {i : Instr} {s t : State} (next : exec i s = .next t) (h : s.Inv) : t.Inv := by
  obtain ⟨u, st, d, writes, rfl⟩ := exec_writes next
  exact writes.keeps_inv h

theorem step_keeps_inv {s t : State} (next : step s = .next t) (h : s.Inv) : t.Inv := by
  cases step_cases next with
  | idle _ same => exact same ▸ h
  | command _ _ next => exact exec_keeps_inv (s := s.takeInput) next h
  | illegal _ _ same => subst same; exact h
  | rst _ same => exact same ▸ deviceReset_inv s.takeInput
  | cut _ same => exact same ▸ deviceReset_inv s.takeInput

/-- Settles O12: a step idles, performs a command, refuses a word or resets, and each of these keeps the invariants. -/
theorem stepKeepsInvariants : Obligations.StepKeepsInvariants :=
  fun _ _ h next => step_keeps_inv next h

/-- Settles O13: the state after reset holds the registers that `rst` leaves. -/
theorem resetMeetsInvariants : Obligations.ResetMeetsInvariants := deviceReset_inv State.reset

end Sys2Proof.Machine

/-! SUPPORT. What a command reads: its own unit's registers and the tables (10_state.md R20, R32). -/

namespace Sys2Proof.Machine

/-! ### Carrying a unit's answer over to another state -/

/-- The outcome with the ENIGMA registers and the response of `r` and everything else of `t`. -/
def carryEnigma (t : State) (r : Result) : Result :=
  match r with
  | .next u => .next { t with e := u.e, rsp := u.rsp }
  | .fault why => .fault why
  | .refused why => .refused why

/-- The outcome with the LORENZ registers and the response of `r` and everything else of `t`. -/
def carryLorenz (t : State) (r : Result) : Result :=
  match r with
  | .next u => .next { t with l := u.l, rsp := u.rsp }
  | .fault why => .fault why
  | .refused why => .refused why

@[simp] theorem carryEnigma_next (t u : State) :
    carryEnigma t (.next u) = .next { t with e := u.e, rsp := u.rsp } := rfl
@[simp] theorem carryEnigma_fault (t : State) (why : Fault) : carryEnigma t (.fault why) = .fault why := rfl
@[simp] theorem carryEnigma_finish_withEnigma (d : Nat) (e : EnigmaRegs) (s t : State) :
    carryEnigma t (finish d (s.withEnigma e)) = finish d (t.withEnigma e) := rfl

@[simp] theorem carryLorenz_next (t u : State) :
    carryLorenz t (.next u) = .next { t with l := u.l, rsp := u.rsp } := rfl
@[simp] theorem carryLorenz_fault (t : State) (why : Fault) : carryLorenz t (.fault why) = .fault why := rfl
@[simp] theorem carryLorenz_finish_withLorenz (d : Nat) (l : LorenzRegs) (s t : State) :
    carryLorenz t (finish d (s.withLorenz l)) = finish d (t.withLorenz l) := rfl

theorem carryEnigma_finish {s t : State} (d : Nat) (he : t.e = s.e) : carryEnigma t (finish d s) = finish d t := by
  simp [finish, State.respond, he.symm]

theorem carryEnigma_raiseError {s t : State} (st : Status) (he : t.e = s.e) :
    carryEnigma t (raiseError st s) = raiseError st t := by
  simp [raiseError, State.respond, he.symm]

theorem carryLorenz_finish {s t : State} (d : Nat) (hl : t.l = s.l) : carryLorenz t (finish d s) = finish d t := by
  simp [finish, State.respond, hl.symm]

theorem carryLorenz_raiseError {s t : State} (st : Status) (hl : t.l = s.l) :
    carryLorenz t (raiseError st s) = raiseError st t := by
  simp [raiseError, State.respond, hl.symm]

/-- An ENIGMA command reads the ENIGMA registers and the tables: on a state with the same, it does the same to the ENIGMA
registers and the response port, and leaves the rest of that state. -/
theorem exec_eq_carryEnigma {i : Instr} {s t : State} (unit : isEnigmaCommand i = true) (he : t.e = s.e)
    (hcfg : t.cfg = s.cfg) : exec i t = carryEnigma t (exec i s) := by
  have refuse := fun st => carryEnigma_raiseError st he
  cases i with
  | erst => rfl
  | esel slot id =>
    simp only [exec, execEsel, he, hcfg]
    cases rotorRom s.cfg id <;> simp [refuse]
  | epos slot pos =>
    simp only [exec, execEpos, he]
    cases positionOperand pos <;> simp [refuse]
  | ering slot ring =>
    simp only [exec, execEring, he]
    cases ringOperand ring <;> simp [refuse]
  | erefl id =>
    simp only [exec, execErefl, he, hcfg]
    cases reflRom s.cfg id <;> simp [refuse]
  | eplug a b =>
    simp only [exec, execEplug, he]
    split
    · simp only [apply_ite (carryEnigma t), refuse, carryEnigma_finish_withEnigma]
    · exact (refuse _).symm
  | eunplug a =>
    simp only [exec, execEunplug, he]
    cases letterOperand a <;> simp [refuse]
  | eenc f x =>
    simp only [exec, execEenc, he, hcfg]
    split
    · cases letterOperand x with
      | none => exact (refuse _).symm
      | some x => cases stackFor s.cfg s.e f <;> simp
    · exact (refuse _).symm
  | erdpos slot =>
    simp only [exec, execErdpos, he]
    exact (carryEnigma_finish _ he).symm
  | lrst | lpos | lenc | lrdpos => cases unit

/-- A LORENZ command reads the LORENZ registers and the tables: on a state with the same, it does the same to the LORENZ
registers and the response port, and leaves the rest of that state. -/
theorem exec_eq_carryLorenz {i : Instr} {s t : State} (unit : isEnigmaCommand i = false) (hl : t.l = s.l)
    (hcfg : t.cfg = s.cfg) : exec i t = carryLorenz t (exec i s) := by
  have refuse := fun st => carryLorenz_raiseError st hl
  cases i with
  | lrst => rfl
  | lpos wheel p =>
    simp only [exec, execLpos, hl]
    cases wheelOperand wheel with
    | none => exact (refuse _).symm
    | some w =>
      dsimp only
      cases wheelPositionOperand w p <;> simp [refuse]
  | lenc u =>
    simp only [exec, execLenc, hl, hcfg]
    split <;> simp
  | lrdpos wheel =>
    simp only [exec, execLrdpos, hl]
    cases wheelOperand wheel <;> simp [refuse, carryLorenz_finish _ hl]
  | erst | esel | epos | ering | erefl | eplug | eunplug | eenc | erdpos => cases unit

/-! ### Frames and independence -/

section
variable {i : Instr} {s s' t : State}

/-- What an answering ENIGMA command does on any state with the same ENIGMA registers and tables. -/
theorem exec_enigma_congr (unit : isEnigmaCommand i = true) (next : exec i s = .next s') (he : t.e = s.e)
    (hcfg : t.cfg = s.cfg) : exec i t = .next { t with e := s'.e, rsp := s'.rsp } := by
  rw [exec_eq_carryEnigma unit he hcfg, next, carryEnigma_next]

/-- What an answering LORENZ command does on any state with the same LORENZ registers and tables. -/
theorem exec_lorenz_congr (unit : isEnigmaCommand i = false) (next : exec i s = .next s') (hl : t.l = s.l)
    (hcfg : t.cfg = s.cfg) : exec i t = .next { t with l := s'.l, rsp := s'.rsp } := by
  rw [exec_eq_carryLorenz unit hl hcfg, next, carryLorenz_next]

theorem exec_enigma_eq (unit : isEnigmaCommand i = true) (next : exec i s = .next s') :
    s' = { s with e := s'.e, rsp := s'.rsp } :=
  Host.Outcome.next.inj (next.symm.trans (exec_enigma_congr unit next rfl rfl))

theorem exec_lorenz_eq (unit : isEnigmaCommand i = false) (next : exec i s = .next s') :
    s' = { s with l := s'.l, rsp := s'.rsp } :=
  Host.Outcome.next.inj (next.symm.trans (exec_lorenz_congr unit next rfl rfl))

theorem exec_enigma_frame (unit : isEnigmaCommand i = true) (next : exec i s = .next s') : OnlyEnigmaChanged s s' := by
  rw [exec_enigma_eq unit next]
  exact ⟨rfl, rfl, rfl⟩

theorem exec_lorenz_frame (unit : isEnigmaCommand i = false) (next : exec i s = .next s') : OnlyLorenzChanged s s' := by
  rw [exec_lorenz_eq unit next]
  exact ⟨rfl, rfl, rfl⟩

theorem exec_withLorenz (l : LorenzRegs) (unit : isEnigmaCommand i = true) (next : exec i s = .next s') :
    exec i (s.withLorenz l) = .next (s'.withLorenz l) := by
  rw [exec_enigma_congr (t := s.withLorenz l) unit next rfl rfl]
  exact congrArg (fun u : State => Host.Outcome.next (u.withLorenz l)) (exec_enigma_eq unit next).symm

theorem exec_withEnigma (e : EnigmaRegs) (unit : isEnigmaCommand i = false) (next : exec i s = .next s') :
    exec i (s.withEnigma e) = .next (s'.withEnigma e) := by
  rw [exec_lorenz_congr (t := s.withEnigma e) unit next rfl rfl]
  exact congrArg (fun u : State => Host.Outcome.next (u.withEnigma e)) (exec_lorenz_eq unit next).symm

end

/-- Settles O53: each command reads its own unit and the tables only, so that what it does carries over to a state that
differs in the other unit. -/
theorem unitsAreIndependent : Obligations.UnitsAreIndependent :=
  ⟨fun _ _ _ next => ⟨fun unit => (exec_enigma_frame unit next).1, fun unit => (exec_lorenz_frame unit next).1⟩,
    fun _ _ _ => exec_withLorenz, fun _ _ _ => exec_withEnigma⟩

/-! ### Equal registers -/

/-- On equal registers a command answers alike and leaves equal registers. -/
theorem exec_sameRegisters {i : Instr} {s s' t : State} (same : SameRegisters s t) (next : exec i s = .next s') :
    ∃ t', exec i t = .next t' ∧ SameRegisters s' t' ∧ t'.rsp = s'.rsp := by
  obtain ⟨he, hl, hcfg⟩ := same
  cases unit : isEnigmaCommand i with
  | true =>
    obtain ⟨fl, fcfg, -⟩ := exec_enigma_frame unit next
    exact ⟨_, exec_enigma_congr unit next he hcfg, ⟨rfl, hl.trans fl.symm, hcfg.trans fcfg.symm⟩, rfl⟩
  | false =>
    obtain ⟨fe, fcfg, -⟩ := exec_lorenz_frame unit next
    exact ⟨_, exec_lorenz_congr unit next hl hcfg, ⟨he.trans fe.symm, rfl, hcfg.trans fcfg.symm⟩, rfl⟩

/-- The host gets an answer exactly when the step goes on and presents one. -/
theorem send_eq_some {c : CommandWord} {s t : State} {r : ResponseWord} :
    send c s = some (t, r) ↔ step (s.present c) = .next t ∧ t.rsp = some r := by
  unfold send
  cases step (s.present c) with
  | next u =>
    simp only [Option.map_eq_some_iff, Prod.mk.injEq, Host.Outcome.next.injEq]
    exact ⟨fun ⟨_, answer, same, equal⟩ => ⟨same, same ▸ equal ▸ answer⟩,
      fun ⟨same, answer⟩ => ⟨r, same ▸ answer, same, rfl⟩⟩
  | fault why => simp
  | refused why => simp

/-- On equal registers a word is answered alike and leaves equal registers. -/
theorem send_sameRegisters {c : CommandWord} {s s' t : State} {r : ResponseWord} (same : SameRegisters s t)
    (one : send c s = some (s', r)) : ∃ t', send c t = some (t', r) ∧ SameRegisters s' t' := by
  cases legal : decode c with
  | ok i =>
    obtain ⟨next, answer⟩ := send_eq_some.mp one
    rw [step_present legal] at next
    obtain ⟨t', next', same', rsp⟩ := exec_sameRegisters same next
    exact ⟨t', send_of_decode legal next' (rsp.trans answer), same'⟩
  | error why =>
    rw [send_illegal legal] at one
    cases one
    exact ⟨_, send_illegal legal t, same⟩

/-- Settles O55, by induction on the words: each is answered alike and leaves equal registers for the rest. -/
theorem equalRegistersAnswerAlike : Obligations.EqualRegistersAnswerAlike := by
  intro cs
  induction cs with
  | nil =>
    intro s t s' rs same h
    cases h
    exact ⟨t, rfl, same⟩
  | cons c cs ih =>
    intro s t s' rs same h
    obtain ⟨s₁, r, qs, one, rest, rfl⟩ := transact_cons_inv h
    obtain ⟨t₁, one', same₁⟩ := send_sameRegisters same one
    obtain ⟨t', rest', same'⟩ := ih s₁ t₁ s' qs same₁ rest
    exact ⟨t', transact_cons one' rest', same'⟩

end Sys2Proof.Machine

/-! SUPPORT. The tables (20_memory.md R51, R54, R55): no command and no step writes them, and the pinned ones are those the spec prints. -/

namespace Sys2Proof.Machine

/-! ### No step changes the tables -/

/-- A command leaves the tables and the inputs still to come, whichever unit it belongs to. -/
theorem exec_cfg_inputs {i : Instr} {s t : State} (next : exec i s = .next t) :
    t.cfg = s.cfg ∧ t.inputs = s.inputs := by
  cases unit : isEnigmaCommand i with
  | true => exact (exec_enigma_frame unit next).2
  | false => exact (exec_lorenz_frame unit next).2

/-- Settles O14: a step that idles has no input to take; every other one takes the oldest input, and what follows (a
command, a refusal or a reset) leaves the tables and the rest of the inputs. -/
theorem tablesNeverChange : Obligations.TablesNeverChange := by
  intro s t next
  cases step_cases next with
  | idle empty same => simp [same, empty]
  | command _ _ next => exact exec_cfg_inputs next
  | illegal _ _ same => simp [same]
  | rst _ same => simp [same]
  | cut _ same => simp [same]

/-! ### The pinned tables -/

/-- The pinned ids are no parameters: every configuration has the same entries there (20_memory.md R54, R55). -/
theorem pinned_ids (c : Config) : rotorRom c 0 = some rotorI ∧ rotorRom c 1 = some rotorII ∧
    rotorRom c 2 = some rotorIII ∧ reflRom c 0 = some reflUkwB := ⟨rfl, rfl, rfl, rfl⟩

/-- Settles O25: the lookups of the pinned ids are equations of the lookup functions, the turnovers are fields of the
tables, and each wiring and each inverse is evaluated at its 26 letters. -/
theorem pinnedTables : Obligations.PinnedTables := by
  refine ⟨pinned_ids, ?wiringI, ?wiringII, ?wiringIII, ?wiringUkwB, rfl, rfl, rfl, ?inverseI, ?inverseII, ?inverseIII⟩
  case wiringI | wiringII | wiringIII | wiringUkwB => decide
  case inverseI | inverseII | inverseIII => decide

end Sys2Proof.Machine

/-! SUPPORT. Words as numbers: the fields of a word, the words of the formats, and the numbers that words of commands and responses are (30_encoding.md R71, R74). -/

namespace Sys2Proof

/-! ### Fields are digits of the word's number -/

/-- The bits of `y` stand below those of `x`. -/
theorem toNat_append_eq_add {m n : Nat} (x : BitVec m) (y : BitVec n) :
    (x ++ y).toNat = x.toNat * 2 ^ n + y.toNat := by
  rw [BitVec.toNat_append, ← Nat.shiftLeft_add_eq_or_of_lt y.isLt, Nat.shiftLeft_eq]

/-- The `len` bits of a word from bit `start` on, as a number. -/
theorem extract_toNat (c : CommandWord) (start len : Nat) :
    (c.extractLsb' start len).toNat = c.toNat / 2 ^ start % 2 ^ len := by
  rw [BitVec.extractLsb'_toNat, Nat.shiftRight_eq_div_pow]

theorem opField_eq (c : CommandWord) : opField c = c.toNat / 4096 := by
  rw [opField, extract_toNat]
  omega

/-! ### The words of the formats -/

theorem formatZ_toNat (op : BitVec 4) : (formatZ op).toNat = 4096 * op.toNat := by
  simp only [formatZ, toNat_append_eq_add, BitVec.toNat_ofNat]
  omega

theorem formatS_toNat (op : BitVec 4) (slot : BitVec 2) (v : BitVec 5) :
    (formatS op slot v).toNat = 4096 * op.toNat + 1024 * slot.toNat + v.toNat := by
  simp only [formatS, toNat_append_eq_add, BitVec.toNat_ofNat]
  omega

theorem formatP_toNat (op : BitVec 4) (a b : BitVec 5) :
    (formatP op a b).toNat = 4096 * op.toNat + 32 * a.toNat + b.toNat := by
  simp only [formatP, toNat_append_eq_add, BitVec.toNat_ofNat]
  omega

theorem formatV_toNat (op : BitVec 4) (f : BitVec 1) (v : BitVec 5) :
    (formatV op f v).toNat = 4096 * op.toNat + 32 * f.toNat + v.toNat := by
  simp only [formatV, toNat_append_eq_add, BitVec.toNat_ofNat]
  omega

theorem formatW_toNat (op : BitVec 4) (wheel : BitVec 4) (p : BitVec 6) :
    (formatW op wheel p).toNat = 4096 * op.toNat + 256 * wheel.toNat + p.toNat := by
  simp only [formatW, toNat_append_eq_add, BitVec.toNat_ofNat]
  omega

/-! ### A word is of a format exactly when its fields are the format's -/

theorem formatZ_eq_iff {c : CommandWord} {op : BitVec 4} :
    formatZ op = c ↔ c.extractLsb' 12 4 = op ∧ c.extractLsb' 0 12 = 0 := by
  simp only [← BitVec.toNat_inj, formatZ_toNat, extract_toNat, BitVec.reduceToNat]
  omega

theorem formatS_eq_iff {c : CommandWord} {op : BitVec 4} {slot : BitVec 2} {v : BitVec 5} :
    formatS op slot v = c ↔
      c.extractLsb' 12 4 = op ∧ c.extractLsb' 10 2 = slot ∧ c.extractLsb' 5 5 = 0 ∧ c.extractLsb' 0 5 = v := by
  simp only [← BitVec.toNat_inj, formatS_toNat, extract_toNat, BitVec.reduceToNat]
  omega

theorem formatP_eq_iff {c : CommandWord} {op : BitVec 4} {a b : BitVec 5} :
    formatP op a b = c ↔
      c.extractLsb' 12 4 = op ∧ c.extractLsb' 10 2 = 0 ∧ c.extractLsb' 5 5 = a ∧ c.extractLsb' 0 5 = b := by
  simp only [← BitVec.toNat_inj, formatP_toNat, extract_toNat, BitVec.reduceToNat]
  omega

theorem formatV_eq_iff {c : CommandWord} {op : BitVec 4} {f : BitVec 1} {v : BitVec 5} :
    formatV op f v = c ↔
      c.extractLsb' 12 4 = op ∧ c.extractLsb' 6 6 = 0 ∧ c.extractLsb' 5 1 = f ∧ c.extractLsb' 0 5 = v := by
  simp only [← BitVec.toNat_inj, formatV_toNat, extract_toNat, BitVec.reduceToNat]
  omega

theorem formatW_eq_iff {c : CommandWord} {op : BitVec 4} {wheel : BitVec 4} {p : BitVec 6} :
    formatW op wheel p = c ↔
      c.extractLsb' 12 4 = op ∧ c.extractLsb' 8 4 = wheel ∧ c.extractLsb' 6 2 = 0 ∧ c.extractLsb' 0 6 = p := by
  simp only [← BitVec.toNat_inj, formatW_toNat, extract_toNat, BitVec.reduceToNat]
  omega

/-! ### The operand fields -/

@[simp] theorem ofNat_vField (c : CommandWord) : BitVec.ofNat 5 (vField c) = c.extractLsb' 0 5 := by
  rw [vField, BitVec.ofNat_toNat, BitVec.setWidth_eq]

@[simp] theorem ofNat_aField (c : CommandWord) : BitVec.ofNat 5 (aField c) = c.extractLsb' 5 5 := by
  rw [aField, BitVec.ofNat_toNat, BitVec.setWidth_eq]

@[simp] theorem ofNat_wheelField (c : CommandWord) : BitVec.ofNat 4 (wheelField c) = c.extractLsb' 8 4 := by
  rw [wheelField, BitVec.ofNat_toNat, BitVec.setWidth_eq]

@[simp] theorem ofNat_pField (c : CommandWord) : BitVec.ofNat 6 (pField c) = c.extractLsb' 0 6 := by
  rw [pField, BitVec.ofNat_toNat, BitVec.setWidth_eq]

@[simp] theorem ofFin_slotField (c : CommandWord) : BitVec.ofFin (slotField c) = c.extractLsb' 10 2 := rfl

@[simp] theorem ofBool_fField (c : CommandWord) : BitVec.ofBool (fField c) = c.extractLsb' 5 1 := by
  ext i hi
  obtain rfl : i = 0 := by omega
  simp [fField]

section
variable (op : BitVec 4) (slot : BitVec 2) (f : BitVec 1) (a b v : BitVec 5) (wheel : BitVec 4) (p : BitVec 6)

@[simp] theorem slotField_formatS : slotField (formatS op slot v) = slot.toFin := by
  obtain ⟨-, slot_eq, -, -⟩ := formatS_eq_iff.mp (rfl : formatS op slot v = _)
  rw [slotField, slot_eq]

@[simp] theorem vField_formatS : vField (formatS op slot v) = v.toNat := by
  obtain ⟨-, -, -, v_eq⟩ := formatS_eq_iff.mp (rfl : formatS op slot v = _)
  rw [vField, v_eq]

@[simp] theorem aField_formatP : aField (formatP op a b) = a.toNat := by
  obtain ⟨-, -, a_eq, -⟩ := formatP_eq_iff.mp (rfl : formatP op a b = _)
  rw [aField, a_eq]

@[simp] theorem vField_formatP : vField (formatP op a b) = b.toNat := by
  obtain ⟨-, -, -, b_eq⟩ := formatP_eq_iff.mp (rfl : formatP op a b = _)
  rw [vField, b_eq]

@[simp] theorem fField_formatV (f : Bool) : fField (formatV op (BitVec.ofBool f) v) = f := by
  obtain ⟨-, -, f_eq, -⟩ := formatV_eq_iff.mp (rfl : formatV op (BitVec.ofBool f) v = _)
  exact BitVec.ofBool_eq_iff_eq.mp ((ofBool_fField _).trans f_eq)

@[simp] theorem vField_formatV : vField (formatV op f v) = v.toNat := by
  obtain ⟨-, -, -, v_eq⟩ := formatV_eq_iff.mp (rfl : formatV op f v = _)
  rw [vField, v_eq]

@[simp] theorem unitField_formatV : unitField (formatV op f v) = v := by
  obtain ⟨-, -, -, v_eq⟩ := formatV_eq_iff.mp (rfl : formatV op f v = _)
  rw [unitField, v_eq]

@[simp] theorem wheelField_formatW : wheelField (formatW op wheel p) = wheel.toNat := by
  obtain ⟨-, wheel_eq, -, -⟩ := formatW_eq_iff.mp (rfl : formatW op wheel p = _)
  rw [wheelField, wheel_eq]

@[simp] theorem pField_formatW : pField (formatW op wheel p) = p.toNat := by
  obtain ⟨-, -, -, p_eq⟩ := formatW_eq_iff.mp (rfl : formatW op wheel p = _)
  rw [pField, p_eq]

end

/-! ### The word of a command and its operands -/

theorem wellFormed_eplug {a b : Nat} : (Instr.eplug a b).WellFormed ↔ a < 32 ∧ b < 32 := by
  simp only [Instr.WellFormed, Instr.wellFormed, Bool.and_eq_true, decide_eq_true_eq]

theorem wellFormed_lpos {wheel p : Nat} : (Instr.lpos wheel p).WellFormed ↔ wheel < 16 ∧ p < 64 := by
  simp only [Instr.WellFormed, Instr.wellFormed, Bool.and_eq_true, decide_eq_true_eq]

/-- Settles O1: the format of each command is the sum of its fields at their weights, and a well-formed operand is the
number its field holds. -/
theorem encodingLayout : Obligations.EncodingLayout := by
  intro i wf
  cases i with
  | erst | lrst => rfl
  | esel slot v | epos slot v | ering slot v =>
    have fits : v < 32 := of_decide_eq_true wf
    simp only [encode, formatS_toNat, BitVec.toNat_ofFin, BitVec.toNat_ofNat, BitVec.reduceToNat]
    omega
  | erdpos slot =>
    simp only [encode, formatS_toNat, BitVec.toNat_ofFin, BitVec.reduceToNat]
    omega
  | eplug a b =>
    obtain ⟨fitsA, fitsB⟩ := wellFormed_eplug.mp wf
    simp only [encode, formatP_toNat, BitVec.toNat_ofNat, BitVec.reduceToNat]
    omega
  | erefl v | eunplug v =>
    have fits : v < 32 := of_decide_eq_true wf
    simp only [encode, formatV_toNat, BitVec.toNat_ofNat, BitVec.reduceToNat]
    omega
  | eenc f x =>
    have fits : x < 32 := of_decide_eq_true wf
    cases f <;>
      simp only [encode, formatV_toNat, BitVec.toNat_ofNat, BitVec.reduceToNat, BitVec.toNat_ofBool,
        Bool.toNat_false, Bool.toNat_true, Bool.false_eq_true, if_true, if_false] <;>
      omega
  | lenc u => simp only [encode, formatV_toNat, BitVec.reduceToNat]
  | lpos wheel p =>
    obtain ⟨fitsWheel, fitsP⟩ := wellFormed_lpos.mp wf
    simp only [encode, formatW_toNat, BitVec.toNat_ofNat, BitVec.reduceToNat]
    omega
  | lrdpos wheel =>
    have fits : wheel < 16 := of_decide_eq_true wf
    simp only [encode, formatW_toNat, BitVec.toNat_ofNat, BitVec.reduceToNat]
    omega

end Sys2Proof

/-! SUPPORT. The decoder (30_encoding.md R73, R75, R76): the opcode map says which command a word is, and the command's operands are the word's fields. -/

namespace Sys2Proof

/-! ### Reading operands from a word -/

/-- The command of the same kind whose operands are the fields of a word (30_encoding.md R71). -/
def Instr.reread (c : CommandWord) : Instr → Instr
  | .erst => .erst
  | .esel _ _ => .esel (slotField c) (vField c)
  | .epos _ _ => .epos (slotField c) (vField c)
  | .ering _ _ => .ering (slotField c) (vField c)
  | .erefl _ => .erefl (vField c)
  | .eplug _ _ => .eplug (aField c) (vField c)
  | .eunplug _ => .eunplug (vField c)
  | .eenc _ _ => .eenc (fField c) (vField c)
  | .erdpos _ => .erdpos (slotField c)
  | .lrst => .lrst
  | .lpos _ _ => .lpos (wheelField c) (pField c)
  | .lenc _ => .lenc (unitField c)
  | .lrdpos _ => .lrdpos (wheelField c)

@[simp] theorem rowOf_reread (c : CommandWord) (i : Instr) : rowOf (i.reread c) = rowOf i := by cases i <;> rfl

@[simp] theorem reread_reread (c d : CommandWord) (i : Instr) : (i.reread d).reread c = i.reread c := by
  cases i <;> rfl

/-- A field's number fits an operand of its command. -/
theorem reread_wellFormed (c : CommandWord) (i : Instr) : (i.reread c).WellFormed := by
  cases i with
  | erst | lrst | erdpos | lenc => rfl
  | esel | epos | ering | erefl | eunplug | eenc =>
    exact decide_eq_true (show vField c < 32 from (c.extractLsb' 0 5).isLt)
  | lrdpos => exact decide_eq_true (show wheelField c < 16 from (c.extractLsb' 8 4).isLt)
  | eplug => exact wellFormed_eplug.mpr ⟨(c.extractLsb' 5 5).isLt, (c.extractLsb' 0 5).isLt⟩
  | lpos => exact wellFormed_lpos.mpr ⟨(c.extractLsb' 8 4).isLt, (c.extractLsb' 0 6).isLt⟩

/-- The operands of a well-formed command stand in the fields of its word. -/
theorem reread_encode {i : Instr} (wf : i.WellFormed) : i.reread (encode i) = i := by
  cases i with
  | erst | lrst => rfl
  | erdpos | lenc => simp [encode, Instr.reread]
  | esel _ v | epos _ v | ering _ v | erefl v | eunplug v | eenc _ v =>
    have fits : v < 32 := of_decide_eq_true wf
    simp [encode, Instr.reread, Nat.mod_eq_of_lt fits]
  | lrdpos wheel =>
    have fits : wheel < 16 := of_decide_eq_true wf
    simp [encode, Instr.reread, Nat.mod_eq_of_lt fits]
  | eplug a b =>
    obtain ⟨fitsA, fitsB⟩ := wellFormed_eplug.mp wf
    simp [encode, Instr.reread, Nat.mod_eq_of_lt fitsA, Nat.mod_eq_of_lt fitsB]
  | lpos wheel p =>
    obtain ⟨fitsWheel, fitsP⟩ := wellFormed_lpos.mp wf
    simp [encode, Instr.reread, Nat.mod_eq_of_lt fitsWheel, Nat.mod_eq_of_lt fitsP]

/-- Where the mask of a matching row is all ones, the word holds what the pattern holds there. -/
theorem field_of_hits {r : OpcodeRow} {c : CommandWord} (hit : r.hits c = true) {start len : Nat} {value : BitVec len}
    (masked : r.mask.extractLsb' start len = BitVec.allOnes len) (held : r.pattern.extractLsb' start len = value) :
    c.extractLsb' start len = value := by
  have same : c &&& r.mask = r.pattern := of_decide_eq_true hit
  rw [← held, ← same, BitVec.extractLsb'_and, masked, BitVec.and_allOnes]

/-- A word that matches a command's row is the word of that command with the word's fields as operands: all the other
bits are in the row's mask, and the pattern has the opcode and the zeros of the format there. -/
theorem encode_reread {i : Instr} {c : CommandWord} (hit : (rowOf i).hits c = true) : encode (i.reread c) = c := by
  cases i with
  | erst | lrst =>
    rw [rowOf] at hit
    exact formatZ_eq_iff.mpr ⟨field_of_hits hit rfl rfl, field_of_hits hit rfl rfl⟩
  | esel | epos | ering =>
    rw [rowOf] at hit
    exact formatS_eq_iff.mpr ⟨field_of_hits hit rfl rfl, rfl, field_of_hits hit rfl rfl, (ofNat_vField c).symm⟩
  | erdpos =>
    rw [rowOf] at hit
    exact formatS_eq_iff.mpr ⟨field_of_hits hit rfl rfl, rfl, field_of_hits hit rfl rfl, field_of_hits hit rfl rfl⟩
  | eplug =>
    rw [rowOf] at hit
    exact formatP_eq_iff.mpr
      ⟨field_of_hits hit rfl rfl, field_of_hits hit rfl rfl, (ofNat_aField c).symm, (ofNat_vField c).symm⟩
  | erefl | eunplug =>
    rw [rowOf] at hit
    exact formatV_eq_iff.mpr
      ⟨field_of_hits hit rfl rfl, field_of_hits hit rfl rfl, field_of_hits hit rfl rfl, (ofNat_vField c).symm⟩
  | eenc =>
    rw [rowOf] at hit
    exact formatV_eq_iff.mpr
      ⟨field_of_hits hit rfl rfl, field_of_hits hit rfl rfl, (ofBool_fField c).symm, (ofNat_vField c).symm⟩
  | lenc =>
    rw [rowOf] at hit
    exact formatV_eq_iff.mpr ⟨field_of_hits hit rfl rfl, field_of_hits hit rfl rfl, field_of_hits hit rfl rfl, rfl⟩
  | lpos =>
    rw [rowOf] at hit
    exact formatW_eq_iff.mpr
      ⟨field_of_hits hit rfl rfl, (ofNat_wheelField c).symm, field_of_hits hit rfl rfl, (ofNat_pField c).symm⟩
  | lrdpos =>
    rw [rowOf] at hit
    exact formatW_eq_iff.mpr
      ⟨field_of_hits hit rfl rfl, (ofNat_wheelField c).symm, field_of_hits hit rfl rfl, field_of_hits hit rfl rfl⟩

/-! ### Decoding goes through the opcode map row by row -/

/-- One command of each kind, in the order of the opcode map. -/
def commandKinds : List Instr :=
  [.erst, .esel 0 0, .epos 0 0, .ering 0 0, .erefl 0, .eplug 0 0, .eunplug 0, .eenc false 0, .erdpos 0, .lrst,
    .lpos 0 0, .lenc 0, .lrdpos 0]

theorem opcodeRows_eq : opcodeRows = commandKinds.map rowOf := rfl

theorem reread_zero_mem (i : Instr) : i.reread 0 ∈ commandKinds := by
  cases i <;> simp [commandKinds, Instr.reread, slotField, vField, aField, fField, wheelField, pField, unitField]

theorem rowOf_mem (i : Instr) : rowOf i ∈ opcodeRows := by
  rw [opcodeRows_eq, ← rowOf_reread 0 i]
  exact List.mem_map_of_mem (reread_zero_mem i)

/-- Every row of the opcode map is a command's. -/
theorem exists_rowOf_eq {r : OpcodeRow} (h : r ∈ opcodeRows) : ∃ i, rowOf i = r := by
  rw [opcodeRows_eq] at h
  obtain ⟨i, -, row⟩ := List.mem_map.mp h
  exact ⟨i, row⟩

/-- Two kinds with the same row are the same. -/
theorem kind_eq_of_rowOf_eq {i j : Instr} (hi : i ∈ commandKinds) (hj : j ∈ commandKinds) (same : rowOf i = rowOf j) :
    i = j :=
  List.inj_on_of_nodup_map (f := rowOf) (by decide) hi hj same

/-- Why a word that matches no row is not a command (30_encoding.md R75, R76). -/
def refusal (c : CommandWord) : DecodeError :=
  if isReservedOpcode (opField c) then .reservedOpcode else .mustBeZeroBitSet

/-- The decoder's search, along a list of kinds. -/
def decodeAmong (c : CommandWord) : List Instr → Except DecodeError Instr
  | [] => .error (refusal c)
  | i :: is => if (rowOf i).hits c then .ok (i.reread c) else decodeAmong c is

theorem decode_eq_decodeAmong (c : CommandWord) : decode c = decodeAmong c commandKinds := by
  simp only [decode, decodeAmong, commandKinds, rowOf, Instr.reread, refusal, apply_ite Except.error]

theorem decodeAmong_cases (c : CommandWord) (is : List Instr) :
    (∃ i ∈ is, (rowOf i).hits c = true ∧ decodeAmong c is = .ok (i.reread c)) ∨
      ((∀ i ∈ is, (rowOf i).hits c = false) ∧ decodeAmong c is = .error (refusal c)) := by
  induction is with
  | nil => exact .inr ⟨by simp, rfl⟩
  | cons i is ih =>
    cases hit : (rowOf i).hits c with
    | true => exact .inl ⟨i, List.mem_cons_self, hit, if_pos hit⟩
    | false =>
      have skip : decodeAmong c (i :: is) = decodeAmong c is := if_neg (by simp [hit])
      rw [skip]
      rcases ih with ⟨j, mem, rest⟩ | ⟨misses, refused⟩
      · exact .inl ⟨j, List.mem_cons_of_mem i mem, rest⟩
      · exact .inr ⟨List.forall_mem_cons.mpr ⟨hit, misses⟩, refused⟩

/-- What decoding can give: the command of a row that the word matches, or a refusal when it matches none. -/
theorem decode_cases (c : CommandWord) :
    (∃ i ∈ commandKinds, (rowOf i).hits c = true ∧ decode c = .ok (i.reread c)) ∨
      ((∀ r ∈ opcodeRows, r.hits c = false) ∧ decode c = .error (refusal c)) := by
  rw [decode_eq_decodeAmong, opcodeRows_eq, List.forall_mem_map]
  exact decodeAmong_cases c commandKinds

/-! ### No word matches two rows -/

/-- A word that matches a row has the row's opcode. -/
theorem opcode_of_hits {r : OpcodeRow} {c : CommandWord} (mem : r ∈ opcodeRows) (hit : r.hits c = true) :
    c.toNat / 4096 = r.pattern.toNat / 4096 := by
  have masked : ∀ q ∈ opcodeRows, q.mask.extractLsb' 12 4 = BitVec.allOnes 4 := by decide
  have same : opField c = opField r.pattern := congrArg BitVec.toNat (field_of_hits hit (masked r mem) rfl)
  rwa [opField_eq, opField_eq] at same

/-- The rows have different opcodes. -/
theorem opcodes_nodup : (opcodeRows.map fun r => r.pattern.toNat / 4096).Nodup := by decide

theorem row_eq_of_opcode_eq {r q : OpcodeRow} (hr : r ∈ opcodeRows) (hq : q ∈ opcodeRows)
    (same : r.pattern.toNat / 4096 = q.pattern.toNat / 4096) : r = q :=
  List.inj_on_of_nodup_map opcodes_nodup hr hq same

theorem row_unique {r q : OpcodeRow} {c : CommandWord} (hr : r ∈ opcodeRows) (hq : q ∈ opcodeRows)
    (hitR : r.hits c = true) (hitQ : q.hits c = true) : r = q :=
  row_eq_of_opcode_eq hr hq ((opcode_of_hits hr hitR).symm.trans (opcode_of_hits hq hitQ))

/-! ### The decoder, said by the rows -/

/-- A word that matches a command's row decodes to the command of that kind. -/
theorem decode_of_hits {i : Instr} {c : CommandWord} (hit : (rowOf i).hits c = true) : decode c = .ok (i.reread c) := by
  rcases decode_cases c with ⟨j, mem, hitJ, decoded⟩ | ⟨misses, -⟩
  · have row : rowOf j = rowOf (i.reread 0) :=
      (row_unique (rowOf_mem j) (rowOf_mem i) hitJ hit).trans (rowOf_reread 0 i).symm
    have kind : j = i.reread 0 := kind_eq_of_rowOf_eq mem (reread_zero_mem i) row
    rw [decoded, kind, reread_reread]
  · simp [misses _ (rowOf_mem i)] at hit

/-- A word decodes to a command exactly when it matches the command's row and holds its operands. -/
theorem decode_eq_ok_iff {c : CommandWord} {i : Instr} :
    decode c = .ok i ↔ (rowOf i).hits c = true ∧ i.reread c = i := by
  constructor
  · intro decoded
    rcases decode_cases c with ⟨j, -, hit, decodedJ⟩ | ⟨-, refused⟩
    · obtain rfl : j.reread c = i := Except.ok.inj (decodedJ.symm.trans decoded)
      simp [hit]
    · cases refused.symm.trans decoded
  · rintro ⟨hit, operands⟩
    rw [decode_of_hits hit, operands]

/-- A word decodes exactly when it matches a row. -/
theorem exists_decode_iff {c : CommandWord} : (∃ i, decode c = .ok i) ↔ ∃ r ∈ opcodeRows, r.hits c = true := by
  constructor
  · rintro ⟨i, decoded⟩
    exact ⟨rowOf i, rowOf_mem i, (decode_eq_ok_iff.mp decoded).1⟩
  · rintro ⟨r, mem, hit⟩
    obtain ⟨i, rfl⟩ := exists_rowOf_eq mem
    exact ⟨i.reread c, decode_of_hits hit⟩

/-- The word of a well-formed command matches the command's row. -/
theorem hits_encode {i : Instr} (wf : i.WellFormed) : (rowOf i).hits (encode i) = true := by
  cases i with
  | erst => exact Laws.RowHit.erst wf
  | esel slot id => exact Laws.RowHit.esel slot id wf
  | epos slot pos => exact Laws.RowHit.epos slot pos wf
  | ering slot ring => exact Laws.RowHit.ering slot ring wf
  | erefl id => exact Laws.RowHit.erefl id wf
  | eplug a b => exact Laws.RowHit.eplug a b wf
  | eunplug a => exact Laws.RowHit.eunplug a wf
  | eenc f x => exact Laws.RowHit.eenc f x wf
  | erdpos slot => exact Laws.RowHit.erdpos slot wf
  | lrst => exact Laws.RowHit.lrst wf
  | lpos wheel p => exact Laws.RowHit.lpos wheel p wf
  | lenc u => exact Laws.RowHit.lenc u wf
  | lrdpos wheel => exact Laws.RowHit.lrdpos wheel wf

/-! ### The round trips -/

/-- Settles O2: the word of a well-formed command matches the command's row, and its fields are the operands. -/
theorem decodeEncodeRoundTrip : Obligations.DecodeEncodeRoundTrip :=
  fun _ wf => decode_eq_ok_iff.mpr ⟨hits_encode wf, reread_encode wf⟩

/-- Settles O3: a word that decodes to a command matches the command's row, so that it is the word of the command with
the word's fields as operands; and that is the command itself. -/
theorem encodeDecodeRoundTrip : Obligations.EncodeDecodeRoundTrip := by
  intro c i decoded
  obtain ⟨hit, operands⟩ := decode_eq_ok_iff.mp decoded
  have word := encode_reread hit
  have wf := reread_wellFormed c i
  rw [operands] at word wf
  exact ⟨word, wf⟩

/-! ### The opcode map and the words that are no commands -/

/-- The opcodes that no row has (30_encoding.md R75). -/
theorem isReservedOpcode_iff {op : Nat} : isReservedOpcode op = true ↔ op = 0x0 ∨ op = 0xE ∨ op = 0xF := by
  simp [isReservedOpcode, or_assoc]

/-- Every opcode is reserved or a row's; `not_reserved_of_mem` says that none is both. -/
theorem opcode_reserved_or_row {op : Nat} (h : op < 16) :
    isReservedOpcode op = true ∨ ∃ r ∈ opcodeRows, r.pattern.toNat / 4096 = op := by
  revert op
  decide

theorem not_reserved_of_mem {r : OpcodeRow} (mem : r ∈ opcodeRows) :
    isReservedOpcode (r.pattern.toNat / 4096) = false := by
  revert r
  decide

theorem not_reserved_of_hits {r : OpcodeRow} {c : CommandWord} (mem : r ∈ opcodeRows) (hit : r.hits c = true) :
    isReservedOpcode (c.toNat / 4096) = false := by
  rw [opcode_of_hits mem hit]
  exact not_reserved_of_mem mem

/-- The words refused as reserved are those with a reserved opcode. -/
theorem decode_eq_reserved_iff {c : CommandWord} :
    decode c = .error .reservedOpcode ↔ isReservedOpcode (c.toNat / 4096) = true := by
  rcases decode_cases c with ⟨i, -, hit, decoded⟩ | ⟨-, refused⟩
  · simp [decoded, not_reserved_of_hits (rowOf_mem i) hit]
  · rw [refused, refusal, opField_eq]
    cases isReservedOpcode (c.toNat / 4096) <;> simp

/-- Settles O4: decoding gives the command of the row that a word matches, different rows have different opcodes, and
the refusal names the opcodes that no row has. -/
theorem maskAndMatchDecideTheCommand : Obligations.MaskAndMatchDecideTheCommand := by
  refine ⟨rfl, ?row, ?disjoint, ?reserved⟩
  case row =>
    intro c r mem
    constructor
    · intro same
      obtain ⟨i, rfl⟩ := exists_rowOf_eq mem
      exact ⟨i.reread c, decode_of_hits (decide_eq_true same), rowOf_reread c i⟩
    · rintro ⟨i, decoded, rfl⟩
      exact of_decide_eq_true (decode_eq_ok_iff.mp decoded).1
  case disjoint =>
    refine (List.pairwise_map.mp opcodes_nodup).imp_of_mem ?_
    intro r q hr hq different c hitR hitQ
    exact different ((opcode_of_hits hr (decide_eq_true hitR)).symm.trans (opcode_of_hits hq (decide_eq_true hitQ)))
  case reserved =>
    intro c
    rw [decode_eq_reserved_iff, isReservedOpcode_iff]

/-- A word decodes to no command exactly when its opcode is reserved, or is a row's that the word does not match. -/
theorem not_exists_decode_iff {c : CommandWord} :
    (¬ ∃ i, decode c = .ok i) ↔ isReservedOpcode (c.toNat / 4096) = true ∨
      ∃ r ∈ opcodeRows, r.pattern.toNat / 4096 = c.toNat / 4096 ∧ r.hits c = false := by
  rw [exists_decode_iff]
  constructor
  · intro undecoded
    have word := c.isLt
    rcases opcode_reserved_or_row (op := c.toNat / 4096) (by omega) with reserved | ⟨r, mem, opcode⟩
    · exact .inl reserved
    · exact .inr ⟨r, mem, opcode, Bool.eq_false_of_not_eq_true fun hit => undecoded ⟨r, mem, hit⟩⟩
  · rintro (reserved | ⟨r, mem, opcode, miss⟩) ⟨q, memQ, hit⟩
    · simp [not_reserved_of_hits memQ hit] at reserved
    · obtain rfl := row_eq_of_opcode_eq mem memQ (opcode.trans (opcode_of_hits memQ hit))
      simp [hit] at miss

end Sys2Proof

/-! SUPPORT. Steps on command words: each is answered, by the command it decodes to or by `IllegalCommand` (30_encoding.md R70, R74 to R77). -/

namespace Sys2Proof.Machine

/-- A state with a command word at the port is the rest of it with that word presented. -/
theorem eq_present {s : State} {c : CommandWord} {rest : List HostEvent} (taken : s.inputs = .command c :: rest) :
    s = ({ s with inputs := rest } : State).present c := by
  rw [State.present, ← taken]

/-- A step on a word that decodes is its command, at the state from which the word has been taken. -/
theorem step_command {s : State} {c : CommandWord} {i : Instr} {rest : List HostEvent}
    (taken : s.inputs = .command c :: rest) (legal : decode c = .ok i) : step s = exec i { s with inputs := rest } := by
  rw [eq_present taken, step_present legal]
  rfl

/-- A step on a word that does not decode refuses it, and takes only the word. -/
theorem step_illegal {s : State} {c : CommandWord} {why : DecodeError} {rest : List HostEvent}
    (taken : s.inputs = .command c :: rest) (bad : decode c = .error why) :
    step s = .next (({ s with inputs := rest } : State).respond .illegalCommand 0) := by
  rw [eq_present taken, step_present_illegal bad]
  rfl

/-- Settles O8: the word of a well-formed command decodes to it. -/
theorem stepRunsTheDecodedCommand : Obligations.StepRunsTheDecodedCommand :=
  fun _ i _ wf taken => step_command taken (decodeEncodeRoundTrip i wf)

/-- Settles O9: the step on an empty list of inputs is the case of `step` that leaves the state. -/
theorem noInputNoChange : Obligations.NoInputNoChange := by
  intro s empty
  rw [step, empty]

/-- Settles O7: the status stands above the six bits of the data. -/
theorem responseLayout : Obligations.ResponseLayout := by
  intro st d
  rw [responseWord, toNat_append_eq_add, Nat.mul_comm]
  cases st <;> rfl

/-- Settles O5: the words that do not decode are those of the opcode map, and the step on one is its refusal. -/
theorem nonCommandsAnswerIllegalCommand : Obligations.NonCommandsAnswerIllegalCommand := by
  intro s c rest taken
  constructor
  · rw [not_exists_decode_iff, isReservedOpcode_iff]
    simp [OpcodeRow.hits, or_assoc]
  · intro undecoded
    cases decoded : decode c with
    | ok i => exact absurd ⟨i, decoded⟩ undecoded
    | error why => exact ⟨_, step_illegal taken decoded, ⟨rfl, rfl, rfl⟩, rfl, rfl⟩

end Sys2Proof.Machine

/-! SUPPORT. Every command is answered where the invariants hold, and `LLOAD` sets the wheels one after the other (30_encoding.md R70, R80). -/

namespace Sys2Proof.Machine

/-! ### Every command word is answered -/

theorem finish_completes (d : Nat) (s : State) : Completes (finish d s) := ⟨_, rfl⟩

theorem raiseError_completes (st : Status) (s : State) : Completes (raiseError st s) := ⟨_, rfl⟩

/-- Under the invariants every command completes: `EENC` finds the tables of its selections, `LENC` its cams, and the
other commands end in a value or an error whatever the state. -/
theorem exec_completes (i : Instr) {s : State} (h : s.Inv) : Completes (exec i s) := by
  obtain ⟨-, selections, -, wheels⟩ := h
  cases i with
  | erst | lrst | erdpos => exact finish_completes _ _
  | lenc u => exact ⟨_, exec_lenc u wheels⟩
  | eenc f x =>
    simp only [exec, execEenc]
    split
    · next ready =>
      obtain ⟨k, tables⟩ := stackFor_of_configured ready selections
      cases letterOperand x with
      | none => exact raiseError_completes _ _
      | some x =>
        simp only [tables]
        exact finish_completes _ _
    · exact raiseError_completes _ _
  | esel | epos | ering | erefl | eunplug | lrdpos =>
    simp only [exec, execEsel, execEpos, execEring, execErefl, execEunplug, execLrdpos]
    split
    · exact raiseError_completes _ _
    · exact finish_completes _ _
  | eplug a b =>
    simp only [exec, execEplug]
    split
    · split_ifs
      iterate 3 exact raiseError_completes _ _
      exact finish_completes _ _
    · exact raiseError_completes _ _
  | lpos wheel p =>
    simp only [exec, execLpos]
    split
    · exact raiseError_completes _ _
    · split
      · exact raiseError_completes _ _
      · exact finish_completes _ _

/-- A command that answers has presented a response. -/
theorem exec_rsp {i : Instr} {s t : State} (next : exec i s = .next t) : ∃ r, t.rsp = some r := by
  obtain ⟨u, st, d, -, rfl⟩ := exec_writes next
  exact ⟨_, respond_rsp u st d⟩

/-- Settles O10: a word that decodes is performed, and under the invariants its command completes; any other word is
refused. -/
theorem everyWordIsAnswered : Obligations.EveryWordIsAnswered := by
  intro s c rest inv taken
  cases decoded : decode c with
  | ok i =>
    obtain ⟨t, next⟩ := exec_completes i (s := { s with inputs := rest }) inv
    obtain ⟨r, answer⟩ := exec_rsp next
    exact ⟨t, r, (step_command taken decoded).trans next, answer, (exec_cfg_inputs next).2⟩
  | error why => exact ⟨_, _, step_illegal taken decoded, rfl, rfl⟩

/-! ### Sending commands in order -/

/-- A command answered `OK` is followed by the rest. -/
theorem sendUntilError_cons_ok {i : Instr} {is : List Instr} {s t u : State} {d : BitVec 6} {rs : List ResponseWord}
    (one : send (encode i) s = some (t, responseWord .ok d)) (rest : sendUntilError is t = some (u, rs)) :
    sendUntilError (i :: is) s = some (u, responseWord .ok d :: rs) := by
  have ok : rspStatus (responseWord .ok d) = 0 := rspStatus_responseWord .ok d
  simp only [sendUntilError, one, ok, if_true, rest, Option.map_some]

/-- The state that an accepted `LPOS` leaves (43_lorenz.md R183). -/
def afterLpos (s : State) (w : Wheel) (p : Nat) : State :=
  (s.withLorenz (setWheelPos s.l w (BitVec.ofNat 6 p))).respond .ok 0

theorem afterLpos_get {w : Wheel} {p : Nat} (h : p < wheelLen[w]) (s : State) (k : Wheel) :
    (afterLpos s w p).l.pos[k].toNat = if k = w then p else s.l.pos[k].toNat := by
  have fits := wheelLen_lt w
  rw [afterLpos, respond_l, withLorenz_l, setWheelPos_pos, set_get]
  split
  · exact Nat.mod_eq_of_lt (by omega)
  · rfl

theorem exec_lpos {w : Wheel} {p : Nat} (h : p < wheelLen[w]) (s : State) :
    exec (.lpos w.val p) s = .next (afterLpos s w p) := by
  simp only [exec, execLpos, wheelOperand_wheel, wheelPositionOperand_some h]
  rfl

/-- The word of `LPOS` at a position of the wheel is answered `OK`. -/
theorem send_lpos {w : Wheel} {p : Nat} (h : p < wheelLen[w]) (s : State) :
    send (encode (.lpos w.val p)) s = some (afterLpos s w p, responseWord .ok 0) := by
  have fits := wheelLen_lt w
  have wf : (Instr.lpos w.val p).WellFormed := wellFormed_lpos.mpr ⟨by omega, by omega⟩
  exact send_of_decode (decodeEncodeRoundTrip _ wf) (exec_lpos h s) rfl

/-- The `LPOS` commands that give some of the wheels their positions. -/
def lposCommands (positions : Vector Nat 12) (ws : List Wheel) : List Instr :=
  ws.map fun w => .lpos w.val positions[w]

/-- The host gets `OK` for each of the commands, and exactly the wheels named are moved. -/
theorem sendUntilError_lposCommands {positions : Vector Nat 12} (inRange : ∀ w : Wheel, positions[w] < wheelLen[w])
    (ws : List Wheel) (s : State) :
    ∃ t, sendUntilError (lposCommands positions ws) s = some (t, List.replicate ws.length (responseWord .ok 0)) ∧
      (∀ k : Wheel, t.l.pos[k].toNat = if k ∈ ws then positions[k] else s.l.pos[k].toNat) ∧
      t.e = s.e ∧ t.cfg = s.cfg := by
  induction ws generalizing s with
  | nil => exact ⟨s, rfl, by simp, rfl, rfl⟩
  | cons w ws ih =>
    obtain ⟨t, sent, moved, enigma, tables⟩ := ih (afterLpos s w positions[w])
    refine ⟨t, sendUntilError_cons_ok (send_lpos (inRange w) s) sent, fun k => ?_, enigma, tables⟩
    rw [moved, afterLpos_get (inRange w)]
    by_cases same : k = w
    · subst same; simp
    · simp [same]

/-- `LLOAD` is one `LPOS` for each wheel (30_encoding.md R80). -/
theorem expandPseudo_lload (positions : Vector Nat 12) :
    expandPseudo (.lload positions) = .ok (lposCommands positions (List.finRange 12)) := by
  refine congrArg Except.ok (List.ext_getElem (by simp [lposCommands]) fun k hk hk' => ?_)
  simp [lposCommands]

/-- Settles O48: each of the twelve `LPOS` commands is answered `OK` and moves its wheel, and every wheel has one. -/
theorem lloadSetsEveryWheel : Obligations.LloadSetsEveryWheel := by
  intro s positions inRange
  obtain ⟨t, sent, moved, enigma, tables⟩ := sendUntilError_lposCommands inRange (List.finRange 12) s
  refine ⟨_, t, expandPseudo_lload positions, sent, fun w => ?_, enigma, tables⟩
  rw [moved, if_pos (List.mem_finRange w)]

end Sys2Proof.Machine

/-! SUPPORT. The arithmetic of a rotor (40_enigma_rotor.md R100, R104 to R106; 20_memory.md R53): a wiring and its inverse table, and the two translations. -/

namespace Sys2Proof.Machine

/-! ### A wiring and its inverse table -/

/-- Every letter is an entry of a wiring. -/
theorem mem_wiring (r : RotorSpec) (j : Letter) : j ∈ r.wiring.toList := by
  have once : r.wiring.toList.count j = 1 := of_decide_eq_true r.bijective j
  exact List.count_pos_iff.mp (by omega)

/-- No letter is an entry of a wiring twice. -/
theorem wiring_nodup (r : RotorSpec) : r.wiring.toList.Nodup :=
  List.nodup_iff_count_eq_one.mpr fun j _ => of_decide_eq_true r.bijective j

@[simp] theorem wir_wirInv (r : RotorSpec) (j : Letter) : wir r (wirInv r j) = j := by
  have found : r.wiring.toList.idxOf j < 26 := by simpa using List.idxOf_lt_length_of_mem (mem_wiring r j)
  have index : (wirInv r j).val = r.wiring.toList.idxOf j := Nat.mod_eq_of_lt found
  calc wir r (wirInv r j) = r.wiring.toList[(wirInv r j).val]'(by simp) := (Vector.getElem_toList _).symm
    _ = j := by simp only [index, List.getElem_idxOf]

@[simp] theorem wirInv_wir (r : RotorSpec) (i : Letter) : wirInv r (wir r i) = i := by
  have found : r.wiring.toList.idxOf (wir r i) = i.val := by
    simpa [wir] using (wiring_nodup r).idxOf_getElem i.val (by simp)
  rw [wirInv, found]
  exact Fin.ofNat_val_eq_self i

theorem wirInv_eq_iff {r : RotorSpec} {i j : Letter} : wirInv r j = i ↔ wir r i = j := by
  constructor
  · rintro rfl; exact wir_wirInv r j
  · rintro rfl; exact wirInv_wir r i

/-! ### The translations -/

theorem mod26_eq_of_val {a : Int} {m : Letter} (h : (m.val : Int) = a % 26) : mod26 a = m := by
  have same : ((mod26 a).val : Int) = m.val := (mod26_val a).trans h.symm
  exact Fin.ext (by omega)

/-- Adding the normalised position takes back its subtraction. -/
@[simp] theorem mod26_sub_add (w n : Letter) : mod26 ((mod26 ((w.val : Int) - n.val)).val + n.val) = w :=
  mod26_eq_of_val (by rw [mod26_val]; omega)

/-- Subtracting the normalised position takes back its addition. -/
@[simp] theorem mod26_add_sub (x n : Letter) : mod26 ((mod26 ((x.val : Int) + n.val)).val - n.val) = x :=
  mod26_eq_of_val (by rw [mod26_val]; omega)

/-- Settles O26: each translation reads its table at the letter that the sum is mod 26, and the two tables are inverse. -/
theorem translationFormulas : Obligations.TranslationFormulas := by
  refine ⟨fun e k r x m => ⟨mod26_val _, fun sum => ?translations⟩, fun r i j => wirInv_eq_iff⟩
  obtain rfl := mod26_eq_of_val sum
  exact ⟨mod26_val _, mod26_val _⟩

/-- Settles O27: between the two tables the subtraction of the position and its addition cancel, then the tables do, and
then the outer addition and subtraction. -/
theorem translationsAreInverse : Obligations.TranslationsAreInverse := by
  intro r e k x
  simp only [forward, backward, rotorTranslate, rotorTranslateReverse]
  constructor
  · rw [mod26_sub_add, wirInv_wir, mod26_add_sub]
  · rw [mod26_sub_add, wir_wirInv, mod26_add_sub]

end Sys2Proof.Machine

/-! SUPPORT. Which commands write a register (10_state.md section 7), read off the writes a command can make. -/

namespace Sys2Proof.Machine

section
variable {i : Instr} {s u : State}

theorem Writes.pos_writer (w : Writes s i u) {k : Slot} (changed : u.e.pos[k] ≠ s.e.pos[k]) :
    i = .erst ∨ (∃ p, i = .epos k p) ∨ ((∃ f x, i = .eenc f x) ∧ k ≠ Slot.fourth) := by
  cases w with
  | erst => exact .inl rfl
  | @epos slot pos =>
    obtain rfl : k = slot := by_contra fun other => changed (set_other _ _ _ _ other)
    exact .inr (.inl ⟨pos, rfl⟩)
  | @eenc f x tables =>
    refine .inr (.inr ⟨⟨f, x.val, rfl⟩, ?_⟩)
    rintro rfl
    obtain ⟨-, -, -, fourth⟩ := stepRotors_get tables s.e
    exact changed fourth
  | eunplug x =>
    obtain ⟨pos, -⟩ := unplugLetter_frame s.e x
    exact absurd (by rw [withEnigma_e, pos]) changed
  | _ => exact absurd rfl changed

theorem Writes.ring_writer (w : Writes s i u) {k : Slot} (changed : u.e.ring[k] ≠ s.e.ring[k]) :
    i = .erst ∨ ∃ r, i = .ering k r := by
  cases w with
  | erst => exact .inl rfl
  | @ering slot ring =>
    obtain rfl : k = slot := by_contra fun other => changed (set_other _ _ _ _ other)
    exact .inr ⟨ring, rfl⟩
  | @eenc _ _ tables =>
    obtain ⟨ring, -⟩ := stepRotors_frame tables s.e
    exact absurd (by rw [withEnigma_e, ring]) changed
  | eunplug x =>
    obtain ⟨-, ring, -⟩ := unplugLetter_frame s.e x
    exact absurd (by rw [withEnigma_e, ring]) changed
  | _ => exact absurd rfl changed

theorem Writes.selector_writer (w : Writes s i u) {k : Slot}
    (changed : u.e.selv[k] ≠ s.e.selv[k] ∨ u.e.sel[k] ≠ s.e.sel[k]) : i = .erst ∨ ∃ id, i = .esel k id := by
  rw [← not_and_or] at changed
  cases w with
  | erst => exact .inl rfl
  | @esel slot id =>
    obtain rfl : k = slot :=
      by_contra fun other => changed ⟨set_other _ _ _ _ other, set_other _ _ _ _ other⟩
    exact .inr ⟨id, rfl⟩
  | @eenc _ _ tables =>
    obtain ⟨-, selv, sel, -⟩ := stepRotors_frame tables s.e
    exact absurd (by simp only [withEnigma_e, selv, sel, and_self]) changed
  | eunplug x =>
    obtain ⟨-, -, selv, sel, -⟩ := unplugLetter_frame s.e x
    exact absurd (by simp only [withEnigma_e, selv, sel, and_self]) changed
  | _ => exact absurd ⟨rfl, rfl⟩ changed

theorem Writes.reflector_writer (w : Writes s i u) (changed : u.e.refv ≠ s.e.refv ∨ u.e.ref ≠ s.e.ref) :
    i = .erst ∨ ∃ id, i = .erefl id := by
  rw [← not_and_or] at changed
  cases w with
  | erst => exact .inl rfl
  | @erefl id => exact .inr ⟨id, rfl⟩
  | @eenc _ _ tables =>
    obtain ⟨-, -, -, refv, ref, -⟩ := stepRotors_frame tables s.e
    exact absurd ⟨refv, ref⟩ changed
  | eunplug x =>
    obtain ⟨-, -, -, -, refv, ref⟩ := unplugLetter_frame s.e x
    exact absurd ⟨refv, ref⟩ changed
  | _ => exact absurd ⟨rfl, rfl⟩ changed

theorem Writes.plug_writer (w : Writes s i u) {x : Letter} (changed : u.e.plug[x] ≠ s.e.plug[x]) :
    i = .erst ∨ (∃ a b, i = .eplug a b) ∨ ∃ a, i = .eunplug a := by
  cases w with
  | erst => exact .inl rfl
  | @eplug a b => exact .inr (.inl ⟨a.val, b.val, rfl⟩)
  | eunplug a => exact .inr (.inr ⟨a.val, rfl⟩)
  | @eenc _ _ tables =>
    obtain ⟨-, -, -, -, -, plug⟩ := stepRotors_frame tables s.e
    exact absurd (by rw [withEnigma_e, plug]) changed
  | _ => exact absurd rfl changed

theorem Writes.wheel_writer (w : Writes s i u) {k : Wheel} (changed : u.l.pos[k] ≠ s.l.pos[k]) :
    i = .lrst ∨ (∃ p, i = .lpos k.val p) ∨ ∃ v, i = .lenc v := by
  cases w with
  | lrst => exact .inl rfl
  | @lpos wheel p =>
    obtain rfl : k = wheel := by_contra fun other => changed (set_other _ _ _ _ other)
    exact .inr (.inl ⟨p, rfl⟩)
  | lenc v => exact .inr (.inr ⟨v, rfl⟩)
  | _ => exact absurd rfl changed

end

/-- Settles O54: a command that answers made one of its writes, and presenting the response changes no register. -/
theorem registersHaveTheirWriters : Obligations.RegistersHaveTheirWriters := by
  intro i s t next
  obtain ⟨u, st, d, writes, rfl⟩ := exec_writes next
  exact ⟨fun _ => writes.pos_writer, fun _ => writes.ring_writer, fun _ => writes.selector_writer,
    writes.reflector_writer, fun _ => writes.plug_writer, fun _ => writes.wheel_writer⟩

end Sys2Proof.Machine

/-! SUPPORT. The commands of the rotor unit (40_enigma_rotor.md R110 to R115): one equation for each outcome, and the order in which they are sent. -/

namespace Sys2Proof.Machine

/-! ### The outcomes of each command -/

theorem positionOperand_none {v : Nat} (h : v = 0 ∨ 27 ≤ v) : positionOperand v = none := if_neg (by omega)

theorem ringOperand_some {v : Nat} (h : v ≤ 25) : ringOperand v = some (BitVec.ofNat 5 v) := if_pos h

theorem ringOperand_none {v : Nat} (h : 26 ≤ v) : ringOperand v = none := if_neg (by omega)

section
variable {s : State} {slot : Slot}

theorem exec_esel_present {id : Nat} {r : RotorSpec} (present : rotorRom s.cfg id = some r) :
    exec (.esel slot id) s = .next ((s.withEnigma (selectRotor s.e slot id)).respond .ok 0) := by
  simp only [exec, execEsel, present]
  rfl

theorem exec_esel_absent {id : Nat} (absent : rotorRom s.cfg id = none) :
    exec (.esel slot id) s = .next (s.respond .configurationError 0) := by
  simp only [exec, execEsel, absent]
  rfl

theorem exec_epos_accepted {pos : Nat} {p : BitVec 5} (operand : positionOperand pos = some p) :
    exec (.epos slot pos) s = .next ((s.withEnigma (setShownPos s.e slot p)).respond .ok 0) := by
  simp only [exec, execEpos, operand]
  rfl

theorem exec_epos_refused {pos : Nat} (operand : positionOperand pos = none) :
    exec (.epos slot pos) s = .next (s.respond .configurationError 0) := by
  simp only [exec, execEpos, operand]
  rfl

theorem exec_ering_accepted {ring : Nat} {r : BitVec 5} (operand : ringOperand ring = some r) :
    exec (.ering slot ring) s = .next ((s.withEnigma (setRing s.e slot r)).respond .ok 0) := by
  simp only [exec, execEring, operand]
  rfl

theorem exec_ering_refused {ring : Nat} (operand : ringOperand ring = none) :
    exec (.ering slot ring) s = .next (s.respond .configurationError 0) := by
  simp only [exec, execEring, operand]
  rfl

theorem exec_erefl_present {id : Nat} {u : ReflSpec} (present : reflRom s.cfg id = some u) :
    exec (.erefl id) s = .next ((s.withEnigma (selectReflector s.e id)).respond .ok 0) := by
  simp only [exec, execErefl, present]
  rfl

theorem exec_erefl_absent {id : Nat} (absent : reflRom s.cfg id = none) :
    exec (.erefl id) s = .next (s.respond .configurationError 0) := by
  simp only [exec, execErefl, absent]
  rfl

theorem exec_erdpos : exec (.erdpos slot) s = .next (s.respond .ok (BitVec.ofNat 6 s.e.pos[slot].toNat)) := rfl

end

/-! ### What each command writes, and its refusals -/

/-- `ESEL` never clears a selection (R110): it sets the valid bit of its slot, or refuses. -/
theorem exec_esel_selv {s t : State} {k : Slot} {id : Nat} (next : exec (.esel k id) s = .next t)
    (selected : s.e.selv[k] = true) : t.e.selv[k] = true := by
  cases lookup : rotorRom s.cfg id with
  | none =>
    rw [exec_esel_absent lookup] at next
    cases next
    exact selected
  | some r =>
    rw [exec_esel_present lookup] at next
    cases next
    exact set_at s.e.selv k true

/-- Settles O19: the id is looked up, and of the two commands that write a selector, `ERST` and `ESEL` of the slot, `ESEL`
clears none. -/
theorem eselSelectsARotor : Obligations.EselSelectsARotor := by
  intro s slot id
  refine ⟨rfl, fun h => ?present, fun absent => ?absent, fun i t k next selected cleared => ?cleared⟩
  case present =>
    obtain ⟨r, present⟩ := Option.isSome_iff_exists.mp h
    have stored : (BitVec.ofNat 5 id).toNat = id := Nat.mod_eq_of_lt (rotorRom_lt present)
    exact ⟨_, exec_esel_present present, set_at _ _ _, (congrArg BitVec.toNat (set_at _ _ _)).trans stored,
      fun k other => ⟨set_other _ _ _ _ other, set_other _ _ _ _ other⟩, fun _ => ⟨rfl, rfl⟩, rfl, rfl, fun _ => rfl,
      rfl, rfl, rfl, rfl⟩
  case absent => exact ⟨_, exec_esel_absent absent, ⟨rfl, rfl, rfl⟩, rfl, rfl⟩
  case cleared =>
    obtain ⟨-, -, selector, -⟩ := registersHaveTheirWriters i s t next
    rcases selector k (.inl (by simp [selected, cleared])) with erst | ⟨id, rfl⟩
    · exact erst
    · exact absurd (exec_esel_selv next selected) (by simp [cleared])

/-- Settles O20: the range test of the operand decides, and the position less one fits the register. -/
theorem eposSetsTheShownPosition : Obligations.EposSetsTheShownPosition := by
  intro s slot pos
  refine ⟨rfl, fun inRange => ?accepted, fun outside => ?refused⟩
  case accepted =>
    have stored : (BitVec.ofNat 5 (pos - 1)).toNat = pos - 1 := Nat.mod_eq_of_lt (by omega)
    exact ⟨_, exec_epos_accepted (positionOperand_some inRange), (congrArg BitVec.toNat (set_at _ _ _)).trans stored,
      fun k other => set_other _ _ _ _ other, fun _ => ⟨rfl, rfl, rfl⟩, rfl, rfl, fun _ => rfl, rfl, rfl, rfl, rfl⟩
  case refused => exact ⟨_, exec_epos_refused (positionOperand_none outside), ⟨rfl, rfl, rfl⟩, rfl, rfl⟩

/-- Settles O21: the range test of the operand decides; the normalised position is that of the new ring, and the notch
tests read the position alone. -/
theorem eringSetsTheRing : Obligations.EringSetsTheRing := by
  intro s slot ring
  refine ⟨rfl, fun inRange => ?accepted, fun outside => ?refused⟩
  case accepted =>
    have stored : ((setRing s.e slot (BitVec.ofNat 5 ring)).ring[slot]).toNat = ring := by
      rw [setRing_ring, set_at]
      exact Nat.mod_eq_of_lt (by omega)
    have normalised : ((normalizedPos (setRing s.e slot (BitVec.ofNat 5 ring)) slot).val : Int) =
        ((s.e.pos[slot].toNat : Int) - ring) % 26 := by
      rw [normalizedPos, mod26_val, stored, setRing_pos]
    exact ⟨_, exec_ering_accepted (ringOperand_some inRange), stored, fun k other => set_other _ _ _ _ other,
      fun _ => ⟨rfl, rfl, rfl⟩, rfl, rfl, fun _ => rfl, normalised, fun _ => rfl, rfl, rfl, rfl, rfl⟩
  case refused => exact ⟨_, exec_ering_refused (ringOperand_none outside), ⟨rfl, rfl, rfl⟩, rfl, rfl⟩

/-- Settles O22: the lookup of the id decides, and an id with an entry fits the register. -/
theorem ereflSelectsAReflector : Obligations.EreflSelectsAReflector := by
  intro s id
  refine ⟨rfl, fun h => ?present, fun absent => ?absent⟩
  case present =>
    obtain ⟨u, present⟩ := Option.isSome_iff_exists.mp h
    exact ⟨_, exec_erefl_present present, rfl, Nat.mod_eq_of_lt (reflRom_lt present),
      fun _ => ⟨rfl, rfl, rfl, rfl⟩, fun _ => rfl, rfl, rfl, rfl, rfl⟩
  case absent => exact ⟨_, exec_erefl_absent absent, ⟨rfl, rfl, rfl⟩, rfl, rfl⟩

/-- An `OK` response with a position is the position, as a number: the status is 0 (30_encoding.md R74). -/
theorem okResponse_toNat (p : BitVec 5) : (responseWord .ok (BitVec.ofNat 6 p.toNat)).toNat = p.toNat := by
  rw [responseLayout, BitVec.toNat_ofNat]
  dsimp only
  omega

/-- Settles O23: the response is the stored position, and the position stored by `EPOS` is the operand less one. -/
theorem erdposReadsThePosition : Obligations.ErdposReadsThePosition := by
  intro s slot
  refine ⟨rfl, ⟨_, _, exec_erdpos, rfl, okResponse_toNat _, ⟨rfl, rfl, rfl⟩, rfl⟩, fun pos low high => ?readback⟩
  obtain ⟨-, accepted, -⟩ := eposSetsTheShownPosition s slot pos
  obtain ⟨t, next, stored, -⟩ := accepted ⟨low, high⟩
  exact ⟨t, _, _, next, exec_erdpos, rfl, (okResponse_toNat _).trans stored⟩

/-! ### Commands that write different registers -/

/-- `ConfigUpdate a f`: on the ENIGMA registers `f` writes at most the configuration register `a` (R115). -/
inductive ConfigUpdate : ConfigRegister → (EnigmaRegs → EnigmaRegs) → Prop
  | nothing (a : ConfigRegister) : ConfigUpdate a id
  | selector (slot : Slot) (id : Nat) : ConfigUpdate (.selector slot) fun e => selectRotor e slot id
  | position (slot : Slot) (p : BitVec 5) : ConfigUpdate (.position slot) fun e => setShownPos e slot p
  | ring (slot : Slot) (r : BitVec 5) : ConfigUpdate (.ring slot) fun e => setRing e slot r
  | reflector (id : Nat) : ConfigUpdate .reflector fun e => selectReflector e id

/-- A configuration command looks up its operand in the tables, and then answers and updates its one register in the same
way whatever the registers hold. -/
theorem exec_config {i : Instr} {a : ConfigRegister} (writes : configRegisterOf i = some a) (c : Config) :
    ∃ st f, ConfigUpdate a f ∧ ∀ s : State, s.cfg = c → exec i s = .next ((s.withEnigma (f s.e)).respond st 0) := by
  cases i with
  | esel slot id =>
    cases writes
    cases lookup : rotorRom c id with
    | none => exact ⟨_, _, .nothing _, fun s same => exec_esel_absent (same ▸ lookup)⟩
    | some r => exact ⟨_, _, .selector slot id, fun s same => exec_esel_present (same ▸ lookup)⟩
  | epos slot pos =>
    cases writes
    cases operand : positionOperand pos with
    | none => exact ⟨_, _, .nothing _, fun s _ => exec_epos_refused operand⟩
    | some p => exact ⟨_, _, .position slot p, fun s _ => exec_epos_accepted operand⟩
  | ering slot ring =>
    cases writes
    cases operand : ringOperand ring with
    | none => exact ⟨_, _, .nothing _, fun s _ => exec_ering_refused operand⟩
    | some r => exact ⟨_, _, .ring slot r, fun s _ => exec_ering_accepted operand⟩
  | erefl id =>
    cases writes
    cases lookup : reflRom c id with
    | none => exact ⟨_, _, .nothing _, fun s same => exec_erefl_absent (same ▸ lookup)⟩
    | some u => exact ⟨_, _, .reflector id, fun s same => exec_erefl_present (same ▸ lookup)⟩
  | _ => cases writes

/-- Updates of different registers commute: of two of one kind the slots differ, and two of different kinds write
different fields. -/
theorem ConfigUpdate.comm {a b : ConfigRegister} {f g : EnigmaRegs → EnigmaRegs} (hf : ConfigUpdate a f)
    (hg : ConfigUpdate b g) (different : a ≠ b) (e : EnigmaRegs) : g (f e) = f (g e) := by
  cases hf with
  | nothing => rfl
  | selector slot id =>
    cases hg with
    | selector slot' id' =>
      have other : slot ≠ slot' := fun same => different (congrArg _ same)
      simp only [selectRotor, set_comm _ _ _ _ _ other]
    | _ => rfl
  | position slot p =>
    cases hg with
    | position slot' p' =>
      have other : slot ≠ slot' := fun same => different (congrArg _ same)
      simp only [setShownPos, set_comm _ _ _ _ _ other]
    | _ => rfl
  | ring slot r =>
    cases hg with
    | ring slot' r' =>
      have other : slot ≠ slot' := fun same => different (congrArg _ same)
      simp only [setRing, set_comm _ _ _ _ _ other]
    | _ => rfl
  | reflector id =>
    cases hg with
    | reflector id' => exact absurd rfl different
    | _ => rfl

/-- Settles O24: each command's answer and update depend on the tables alone, and the updates commute. -/
theorem configurationOrderDoesNotMatter : Obligations.ConfigurationOrderDoesNotMatter := by
  intro i j a b s hi hj different
  obtain ⟨sti, f, hf, execI⟩ := exec_config hi s.cfg
  obtain ⟨stj, g, hg, execJ⟩ := exec_config hj s.cfg
  exact ⟨_, _, _, _, execI s rfl, execJ _ rfl, execJ s rfl, execI _ rfl,
    ⟨(hf.comm hg different s.e).symm, rfl, rfl⟩, rfl, rfl⟩

end Sys2Proof.Machine

/-! SUPPORT. The commands of the plugboard (41_enigma_plugboard.md R131 to R135): their outcomes, and the algebra of their updates. -/

namespace Sys2Proof.Machine

/-! ### The algebra of the updates -/

section
variable {e : EnigmaRegs} {a b : Letter}

theorem plugTakenByOther_eq_true : plugTakenByOther e a b = true ↔ ∃ z, e.plug[a] = some z ∧ z ≠ b := by
  unfold plugTakenByOther
  split <;> simp [*]

theorem plugPair_comm (different : a ≠ b) : plugPair e a b = plugPair e b a := by
  rw [plugPair, plugPair, set_comm _ _ _ _ _ different]

/-- Adding a pair that is there already writes what is stored. -/
theorem plugPair_present (ha : e.plug[a] = some b) (hb : e.plug[b] = some a) : plugPair e a b = e := by
  rw [plugPair, set_same _ _ _ ha, set_same _ _ _ hb]

/-- Removing by its first letter a pair just added to two free letters clears the two entries again (R135). -/
theorem unplugLetter_plugPair_left (different : a ≠ b) (freeA : e.plug[a] = none) (freeB : e.plug[b] = none) :
    unplugLetter (plugPair e a b) a = e := by
  have mapped : (plugPair e a b).plug[a] = some b := by rw [plugPair_get, if_neg different, if_pos rfl]
  have restored : ((plugPair e a b).plug.set a none).set b none = e.plug := by
    refine ext_of_get fun x => ?_
    rw [set_get, set_get, plugPair_get]
    split
    · next atB => rw [atB, freeB]
    · split
      · next atA => rw [atA, freeA]
      · rfl
  rw [unplugLetter_mapped mapped, restored]
  rfl

theorem unplugLetter_plugPair_right (different : a ≠ b) (freeA : e.plug[a] = none) (freeB : e.plug[b] = none) :
    unplugLetter (plugPair e a b) b = e := by
  rw [plugPair_comm different, unplugLetter_plugPair_left different.symm freeB freeA]

theorem plugTranslate_unmapped (h : e.plug[a] = none) : plugTranslate e a = a := by rw [plugTranslate, h]; rfl

theorem plugTranslate_mapped (h : e.plug[a] = some b) : plugTranslate e a = b := by rw [plugTranslate, h]; rfl

end

/-! ### The outcomes of each command -/

section
variable {s : State}

/-- `EPLUG` of two letters: the three tests after the letter test have one refusal in common (R132). -/
theorem exec_eplug_letters (a b : Letter) :
    exec (.eplug a.val b.val) s =
      if a = b ∨ plugTakenByOther s.e a b = true ∨ plugTakenByOther s.e b a = true then
        .next (s.respond .configurationError 0)
      else .next ((s.withEnigma (plugPair s.e a b)).respond .ok 0) := by
  simp only [exec, execEplug, letterOperand_letter, ite_or]
  rfl

theorem exec_eplug_nonLetter {a b : Nat} (h : 26 ≤ a ∨ 26 ≤ b) :
    exec (.eplug a b) s = .next (s.respond .configurationError 0) := by
  simp only [exec, execEplug]
  split
  · next x y ha hb =>
    have valA := letterOperand_eq_some.mp ha
    have valB := letterOperand_eq_some.mp hb
    omega
  · rfl

theorem exec_eplug_accepted {a b : Letter} (different : a ≠ b) (freeA : s.e.plug[a] = none ∨ s.e.plug[a] = some b)
    (freeB : s.e.plug[b] = none ∨ s.e.plug[b] = some a) :
    exec (.eplug a.val b.val) s = .next ((s.withEnigma (plugPair s.e a b)).respond .ok 0) := by
  have takenA := plugTakenByOther_eq_false.mpr freeA
  have takenB := plugTakenByOther_eq_false.mpr freeB
  rw [exec_eplug_letters, if_neg (by simp [different, takenA, takenB])]

theorem exec_eplug_letters_comm (a b : Letter) : exec (.eplug a.val b.val) s = exec (.eplug b.val a.val) s := by
  rw [exec_eplug_letters, exec_eplug_letters]
  exact ite_congr (propext (or_congr eq_comm or_comm)) (fun _ => rfl)
    fun accepted => by rw [plugPair_comm fun same => accepted (.inl same.symm)]

theorem exec_eplug_comm (a b : Nat) : exec (.eplug a b) s = exec (.eplug b a) s := by
  by_cases letters : a < 26 ∧ b < 26
  · obtain ⟨smallA, smallB⟩ := letters
    exact exec_eplug_letters_comm ⟨a, smallA⟩ ⟨b, smallB⟩
  · rw [exec_eplug_nonLetter (by omega), exec_eplug_nonLetter (by omega)]

theorem exec_eunplug_letter (a : Letter) :
    exec (.eunplug a.val) s = .next ((s.withEnigma (unplugLetter s.e a)).respond .ok 0) := by
  simp only [exec, execEunplug, letterOperand_letter]
  rfl

theorem exec_eunplug_nonLetter {a : Nat} (h : 26 ≤ a) :
    exec (.eunplug a) s = .next (s.respond .configurationError 0) := by
  simp only [exec, execEunplug, letterOperand_none h]
  rfl

end

/-! ### What the commands do to the plugboard -/

/-- Settles O28: the tests that pass are those of two free letters, and each cause of a refusal fails one of them. -/
theorem eplugAddsAPair : Obligations.EplugAddsAPair := by
  refine ⟨fun _ _ => rfl, fun s a b different freeA freeB => ?accepted, fun s a b cause => ?refused⟩
  case accepted =>
    refine ⟨_, exec_eplug_accepted different freeA freeB, ?_, ?_, fun x notA notB => ?_,
      fun _ => ⟨rfl, rfl, rfl, rfl⟩, rfl, rfl, rfl, rfl, rfl, rfl⟩
    · exact (plugPair_get s.e a b a).trans (by rw [if_neg different, if_pos rfl])
    · exact (plugPair_get s.e a b b).trans (if_pos rfl)
    · exact (plugPair_get s.e a b x).trans (by rw [if_neg notB, if_neg notA])
  case refused =>
    refine ⟨s.respond .configurationError 0, ?_, ⟨rfl, rfl, rfl⟩, rfl, rfl⟩
    by_cases letters : a < 26 ∧ b < 26
    · obtain ⟨smallA, smallB⟩ := letters
      refine (exec_eplug_letters ⟨a, smallA⟩ ⟨b, smallB⟩).trans (if_pos ?_)
      simp only [plugTakenByOther_eq_true]
      rcases cause with big | big | same | ⟨x, y, z, rfl, rfl, taken | taken⟩
      · omega
      · omega
      · exact .inl (Fin.ext same)
      · exact .inr (.inl ⟨z, taken⟩)
      · exact .inr (.inr ⟨z, taken⟩)
    · exact exec_eplug_nonLetter (by omega)

/-- Settles O29: a pair that is present passes the tests and its writes store what is there; the tests and the writes are
symmetric in the two letters. -/
theorem eplugOrderAndRepetition : Obligations.EplugOrderAndRepetition := by
  refine ⟨fun s a b paired mapped => ?_, fun s => exec_eplug_comm⟩
  obtain ⟨back, different⟩ := paired a b mapped
  exact ⟨_, exec_eplug_accepted different (.inr mapped) (.inr back), ⟨plugPair_present mapped back, rfl, rfl⟩, rfl⟩

/-- Settles O30: the entry of the letter decides what is cleared, and only the plugboard is written. -/
theorem eunplugRemovesThePair : Obligations.EunplugRemovesThePair := by
  refine ⟨fun _ => rfl, fun s a _ => ?letter, fun s a big => ?nonLetter⟩
  case letter =>
    obtain ⟨pos, ring, selv, sel, refv, ref⟩ := unplugLetter_frame s.e a
    refine ⟨_, exec_eunplug_letter a, fun free => ⟨unplugLetter_unmapped free, rfl, rfl⟩, fun b mapped => ?_,
      fun k => ?_, refv, ref, rfl, rfl, rfl, rfl⟩
    · have entry := unplugLetter_get mapped
      exact ⟨(entry a).trans (by rw [if_pos rfl, ite_self]), (entry b).trans (if_pos rfl),
        fun x notA notB => (entry x).trans (by rw [if_neg notB, if_neg notA])⟩
    · simp only [respond_e, withEnigma_e, pos, ring, selv, sel, and_self]
  case nonLetter => exact ⟨_, exec_eunplug_nonLetter big, ⟨rfl, rfl, rfl⟩, rfl, rfl⟩

/-- Settles O31: a free letter stands for itself, and the partner of a mapped one is mapped back. -/
theorem plugTranslateIsInvolutive : Obligations.PlugTranslateIsInvolutive := by
  intro e x paired
  cases entry : e.plug[x] with
  | none => rw [plugTranslate_unmapped entry, plugTranslate_unmapped entry]
  | some y =>
    obtain ⟨back, -⟩ := paired x y entry
    rw [plugTranslate_mapped entry, plugTranslate_mapped back]

/-- Settles O32: the pair that `EPLUG` added is removed again from either end. -/
theorem unplugUndoesPlug : Obligations.UnplugUndoesPlug := by
  intro s a b x different freeA freeB either
  refine ⟨_, _, exec_eplug_accepted different (.inl freeA) (.inl freeB), exec_eunplug_letter x, ?_, rfl, rfl⟩
  rcases either with rfl | rfl
  · exact unplugLetter_plugPair_left different freeA freeB
  · exact unplugLetter_plugPair_right different freeA freeB

end Sys2Proof.Machine

/-! SUPPORT. The Enigma machine (42_enigma_machine.md R150 to R160): the outcomes of `EENC`, the stepping rule, the signal path, and messages sent letter by letter. -/

namespace Sys2Proof.Machine

/-! ### What a configured unit is, and which tables it uses -/

section
variable {c : Config} {e e' : EnigmaRegs} {f : Bool} {right centre left fourth : RotorSpec} {refl : ReflSpec} {k : Stack}

/-- `Configured(f)` as R151 writes it. -/
theorem configured_iff :
    configured e f = true ↔
      e.selv[Slot.right] = true ∧ e.selv[Slot.centre] = true ∧ e.selv[Slot.left] = true ∧ e.refv = true ∧
        (f = false ∨ e.selv[Slot.fourth] = true) := by
  simp only [configured, Bool.and_eq_true, Bool.or_eq_true, Bool.not_eq_true', and_assoc]

theorem configured_reset (f : Bool) : configured EnigmaRegs.reset f = false := by simp [configured]

theorem configured_congr (selv : e'.selv = e.selv) (refv : e'.refv = e.refv) : configured e' f = configured e f := by
  rw [configured, configured, selv, refv]

theorem stackFor_congr (selv : e'.selv = e.selv) (sel : e'.sel = e.sel) (refv : e'.refv = e.refv)
    (ref : e'.ref = e.ref) : stackFor c e' f = stackFor c e f := by
  simp only [stackFor, rotorIn, reflectorIn, selv, sel, refv, ref]

theorem rotorIn_selected {s : Slot} (selected : e.selv[s] = true) : rotorIn c e s = rotorRom c e.sel[s].toNat :=
  if_pos selected

theorem reflectorIn_selected (selected : e.refv = true) : reflectorIn c e = reflRom c e.ref.toNat := if_pos selected

/-- The two rotors that the stepping rule reads are those of the selectors of slots 0 and 1. -/
theorem stackFor_stepping (selected : configured e f = true) (tables : stackFor c e f = some k) :
    rotorRom c e.sel[Slot.right].toNat = some k.right ∧ rotorRom c e.sel[Slot.centre].toNat = some k.centre := by
  obtain ⟨selRight, selCentre, -⟩ := configured_iff.mp selected
  obtain ⟨inRight, inCentre, -⟩ := stackFor_tables tables
  exact ⟨(rotorIn_selected selRight).symm.trans inRight, (rotorIn_selected selCentre).symm.trans inCentre⟩

/-- Under the invariants a configured unit has its tables, with the rotors found at the selectors of slots 0 and 1. -/
theorem exists_stackFor (selected : configured e f = true) (present : SelectionsExist c e)
    (romRight : rotorRom c e.sel[Slot.right].toNat = some right)
    (romCentre : rotorRom c e.sel[Slot.centre].toNat = some centre) :
    ∃ k, stackFor c e f = some k ∧ k.right = right ∧ k.centre = centre := by
  obtain ⟨k, tables⟩ := stackFor_of_configured selected present
  obtain ⟨atRight, atCentre⟩ := stackFor_stepping selected tables
  exact ⟨k, tables, Option.some.inj (atRight.symm.trans romRight), Option.some.inj (atCentre.symm.trans romCentre)⟩

section
variable (romRight : rotorRom c e.sel[Slot.right].toNat = some right)
  (romCentre : rotorRom c e.sel[Slot.centre].toNat = some centre)
  (romLeft : rotorRom c e.sel[Slot.left].toNat = some left) (romRefl : reflRom c e.ref.toNat = some refl)
include romRight romCentre romLeft romRefl

theorem stackFor_three (selected : configured e false = true) :
    stackFor c e false = some ⟨right, centre, left, none, refl⟩ := by
  obtain ⟨selRight, selCentre, selLeft, selRefl, -⟩ := configured_iff.mp selected
  simp only [stackFor, rotorIn_selected selRight, rotorIn_selected selCentre, rotorIn_selected selLeft,
    reflectorIn_selected selRefl, romRight, romCentre, romLeft, romRefl, Bool.false_eq_true, if_false]

theorem stackFor_four (romFourth : rotorRom c e.sel[Slot.fourth].toNat = some fourth)
    (selected : configured e true = true) :
    stackFor c e true = some ⟨right, centre, left, some fourth, refl⟩ := by
  obtain ⟨selRight, selCentre, selLeft, selRefl, withFourth⟩ := configured_iff.mp selected
  have selFourth : e.selv[Slot.fourth] = true := withFourth.resolve_left (by decide)
  simp only [stackFor, rotorIn_selected selRight, rotorIn_selected selCentre, rotorIn_selected selLeft,
    rotorIn_selected selFourth, reflectorIn_selected selRefl, romRight, romCentre, romLeft, romFourth, romRefl,
    if_true, Option.map_some]

end

end

/-! ### The outcomes of each command -/

section
variable {s : State} {f : Bool}

theorem exec_erst : exec .erst s = .next ((s.withEnigma EnigmaRegs.reset).respond .ok 0) := rfl

/-- The configuration is tested first, so the operand does not matter (R152, 60_exceptions.md R246). -/
theorem exec_eenc_unconfigured (x : Nat) (h : configured s.e f = false) :
    exec (.eenc f x) s = .next (s.respond .configurationError 0) := by
  simp only [exec, execEenc, h, Bool.false_eq_true, if_false]
  rfl

theorem exec_eenc_nonLetter {x : Nat} (selected : configured s.e f = true) (h : 26 ≤ x) :
    exec (.eenc f x) s = .next (s.respond .invalidInputError 0) := by
  simp only [exec, execEenc, selected, if_true, letterOperand_none h]
  rfl

end

/-- An `OK` response with a letter is the letter's code, as a number (30_encoding.md R74). -/
theorem letterResponse_toNat (y : Letter) : (responseWord .ok (BitVec.ofNat 6 y.val)).toNat = y.val := by
  have small := y.isLt
  rw [responseLayout, BitVec.toNat_ofNat]
  dsimp only
  omega

/-- Settles O17: `ERST` writes the reset registers of the unit, and a unit with those is unconfigured. -/
theorem erstResetsTheEnigmaUnit : Obligations.ErstResetsTheEnigmaUnit := by
  refine ⟨rfl, fun s => ⟨_, exec_erst, fun k => ?_, rfl, rfl, fun x => reset_plug x.val x.isLt, rfl, ⟨rfl, rfl, rfl⟩,
    fun f x => ⟨_, exec_eenc_unconfigured x (configured_reset f), rfl⟩⟩⟩
  exact ⟨reset_selv k.val k.isLt, reset_sel k.val k.isLt, reset_pos k.val k.isLt, reset_ring k.val k.isLt⟩

/-- Settles O33: the test of the configuration comes before the test of the letter, and each refusal writes nothing. -/
theorem eencRefusals : Obligations.EencRefusals := by
  intro s f x
  refine ⟨configured_iff, fun missing => ?unconfigured, fun selRight selCentre selLeft selRefl withFourth big =>
    ?nonLetter⟩
  case unconfigured =>
    have unconfigured := Bool.eq_false_iff.mpr (mt configured_iff.mp missing)
    exact ⟨_, exec_eenc_unconfigured x unconfigured, ⟨rfl, rfl, rfl⟩, rfl, rfl⟩
  case nonLetter =>
    have selected := configured_iff.mpr ⟨selRight, selCentre, selLeft, selRefl, withFourth⟩
    exact ⟨_, exec_eenc_nonLetter selected big, ⟨rfl, rfl, rfl⟩, rfl, rfl⟩

/-! ### The stepping rule (R153) -/

/-- A slot is at notch when its raw position is a turnover position of the rotor it holds (40_enigma_rotor.md R102). -/
theorem atNotch_iff {r : RotorSpec} {e : EnigmaRegs} {s : Slot} :
    atNotch r e s = true ↔ ∃ n ∈ r.turnover, n.val = e.pos[s].toNat := by
  simp only [atNotch, List.any_eq_true, beq_iff_eq]

theorem atNotch_eq_false_iff {r : RotorSpec} {e : EnigmaRegs} {s : Slot} :
    atNotch r e s = false ↔ ∀ n ∈ r.turnover, n.val ≠ e.pos[s].toNat := by
  simp only [atNotch, List.any_eq_false, beq_iff_eq, ne_eq]

section
variable {k : Stack} {e : EnigmaRegs}

theorem stepRotors_right : (stepRotors k e).pos[Slot.right].toNat = (e.pos[Slot.right].toNat + 1) % 26 :=
  (stepRotors_get k e).1

theorem stepRotors_fourth : (stepRotors k e).pos[Slot.fourth] = e.pos[Slot.fourth] := (stepRotors_get k e).2.2.2

theorem stepRotors_centre_moves
    (h : atNotch k.centre e Slot.centre = true ∨ atNotch k.right e Slot.right = true) :
    (stepRotors k e).pos[Slot.centre].toNat = (e.pos[Slot.centre].toNat + 1) % 26 := by
  obtain ⟨-, moved, -⟩ := stepRotors_get k e
  exact moved.trans (if_pos (Bool.or_eq_true_iff.mpr h))

theorem stepRotors_centre_rests (centreOff : atNotch k.centre e Slot.centre = false)
    (rightOff : atNotch k.right e Slot.right = false) :
    (stepRotors k e).pos[Slot.centre] = e.pos[Slot.centre] := by
  obtain ⟨-, rests, -⟩ := stepRotors_get k e
  rw [centreOff, rightOff] at rests
  exact BitVec.eq_of_toNat_eq rests

theorem stepRotors_left_moves (h : atNotch k.centre e Slot.centre = true) :
    (stepRotors k e).pos[Slot.left].toNat = (e.pos[Slot.left].toNat + 1) % 26 := by
  obtain ⟨-, -, moved, -⟩ := stepRotors_get k e
  exact moved.trans (if_pos h)

theorem stepRotors_left_rests (h : atNotch k.centre e Slot.centre = false) :
    (stepRotors k e).pos[Slot.left] = e.pos[Slot.left] := by
  obtain ⟨-, -, rests, -⟩ := stepRotors_get k e
  rw [h] at rests
  exact BitVec.eq_of_toNat_eq rests

/-- Stepping writes no selector, so the unit stays configured. -/
theorem configured_stepRotors (f : Bool) : configured (stepRotors k e) f = configured e f := by
  obtain ⟨-, selv, -, refv, -⟩ := stepRotors_frame k e
  exact configured_congr selv refv

/-- Stepping writes no selector, so the tables stay those in use. -/
theorem stackFor_stepRotors (c : Config) (f : Bool) : stackFor c (stepRotors k e) f = stackFor c e f := by
  obtain ⟨-, selv, sel, refv, ref, -⟩ := stepRotors_frame k e
  exact stackFor_congr selv sel refv ref

theorem plugboardPaired_stepRotors (h : PlugboardPaired e) : PlugboardPaired (stepRotors k e) := by
  obtain ⟨-, -, -, -, -, plug⟩ := stepRotors_frame k e
  intro a b
  rw [plug]
  exact h a b

theorem plugTranslate_stepRotors (x : Letter) : plugTranslate (stepRotors k e) x = plugTranslate e x := by
  obtain ⟨-, -, -, -, -, plug⟩ := stepRotors_frame k e
  rw [plugTranslate, plugTranslate, plug]

/-- Stepping reads the positions and the rotors of slots 0 and 1, and nothing else (R157). -/
theorem stepRotors_pos_congr {k' : Stack} {e' : EnigmaRegs} (right : k.right = k'.right)
    (centre : k.centre = k'.centre) (pos : e.pos = e'.pos) : (stepRotors k e).pos = (stepRotors k' e').pos := by
  have sameCentre : atNotch k.centre e Slot.centre = atNotch k'.centre e' Slot.centre := by
    rw [atNotch, atNotch, centre, pos]
  have sameRight : atNotch k.right e Slot.right = atNotch k'.right e' Slot.right := by
    rw [atNotch, atNotch, right, pos]
  unfold stepRotors
  dsimp only
  rw [sameCentre, sameRight]
  split
  · simp only [rotate_pos, pos]
  · split <;> simp only [rotate_pos, pos]

end

/-- Settles O34: `EENC` leaves the stepped rotors, and each slot moves under its own notch tests. -/
theorem eencStepsTheRotors : Obligations.EencStepsTheRotors := by
  rintro s f x right centre ⟨-, present, -⟩ selected romRight romCentre
  obtain ⟨k, tables, rfl, rfl⟩ := exists_stackFor selected present romRight romCentre
  obtain ⟨ring, selv, sel, refv, ref, plug⟩ := stepRotors_frame k s.e
  refine ⟨_, _, exec_eenc x selected tables, rfl, stepRotors_right, fun atCentre => ?centreAtNotch,
    fun offCentre => ?centreOffNotch, stepRotors_fourth, fun n => ?registers, refv, ref, fun z => ?plugs, rfl, rfl, rfl⟩
  case centreAtNotch =>
    have notch := atNotch_iff.mpr atCentre
    exact ⟨stepRotors_centre_moves (.inl notch), stepRotors_left_moves notch⟩
  case centreOffNotch =>
    have off := atNotch_eq_false_iff.mpr offCentre
    exact ⟨stepRotors_left_rests off, fun atRight => stepRotors_centre_moves (.inr (atNotch_iff.mpr atRight)),
      fun offRight => stepRotors_centre_rests off (atNotch_eq_false_iff.mpr offRight)⟩
  case registers => simp only [respond_e, withEnigma_e, ring, selv, sel, and_self]
  case plugs => simp only [respond_e, withEnigma_e, plug]

/-- Settles O37: the first letter brings the centre rotor onto its notch, where the second letter finds it. -/
theorem doubleStep : Obligations.DoubleStep := by
  rintro s f x y right centre ⟨-, present, -⟩ selected romRight romCentre atRight belowCentre offCentre
  obtain ⟨k, tables, rfl, rfl⟩ := exists_stackFor selected present romRight romCentre
  have first := stepRotors_centre_moves (.inr (atNotch_iff.mpr atRight))
  have notch : atNotch k.centre (stepRotors k s.e) Slot.centre = true := atNotch_iff.mpr (first ▸ belowCentre)
  have leftRests := stepRotors_left_rests (atNotch_eq_false_iff.mpr offCentre)
  refine ⟨_, _, exec_eenc x selected tables,
    exec_eenc y ((configured_stepRotors f).trans selected) ((stackFor_stepRotors s.cfg f).trans tables),
    stepRotors_right, first, leftRests, ?rightTwice, ?centreTwice, ?leftOnce⟩
  case rightTwice =>
    refine stepRotors_right.trans ?_
    rw [respond_e, withEnigma_e, stepRotors_right, Nat.mod_add_mod]
  case centreTwice =>
    refine (stepRotors_centre_moves (.inl notch)).trans ?_
    rw [first, Nat.mod_add_mod]
  case leftOnce =>
    refine (stepRotors_left_moves notch).trans ?_
    rw [leftRests]

/-! ### The signal path (R154, R155) -/

/-- The forward half of the path, between plugboard and reflector (R154). -/
def toReflector (k : Stack) (e : EnigmaRegs) (x : Letter) : Letter :=
  forwardFourth k e (forward k.left e Slot.left (forward k.centre e Slot.centre (forward k.right e Slot.right x)))

/-- The reverse half of the path, between reflector and plugboard (R154). -/
def fromReflector (k : Stack) (e : EnigmaRegs) (y : Letter) : Letter :=
  backward k.right e Slot.right (backward k.centre e Slot.centre (backward k.left e Slot.left (backwardFourth k e y)))

section
variable (k : Stack) (e : EnigmaRegs) (x : Letter)

/-- The path is the reflector, conjugated by the rotors and by the plugboard (R155). -/
theorem path_eq :
    path k e x = plugTranslate e (fromReflector k e (reflect k.refl (toReflector k e (plugTranslate e x)))) := rfl

/-- The path at the stepped positions, with the plugboard as it was before the step. -/
theorem path_stepRotors :
    path k (stepRotors k e) x =
      plugTranslate e (fromReflector k (stepRotors k e)
        (reflect k.refl (toReflector k (stepRotors k e) (plugTranslate e x)))) := by
  rw [path_eq, plugTranslate_stepRotors, plugTranslate_stepRotors]

theorem backwardFourth_forwardFourth : backwardFourth k e (forwardFourth k e x) = x := by
  unfold backwardFourth forwardFourth
  cases k.fourth with
  | none => rfl
  | some r => exact (translationsAreInverse r e Slot.fourth x).1

theorem forwardFourth_backwardFourth : forwardFourth k e (backwardFourth k e x) = x := by
  unfold backwardFourth forwardFourth
  cases k.fourth with
  | none => rfl
  | some r => exact (translationsAreInverse r e Slot.fourth x).2

theorem fromReflector_toReflector : fromReflector k e (toReflector k e x) = x := by
  rw [fromReflector, toReflector, backwardFourth_forwardFourth, (translationsAreInverse _ _ _ _).1,
    (translationsAreInverse _ _ _ _).1, (translationsAreInverse _ _ _ _).1]

theorem toReflector_fromReflector : toReflector k e (fromReflector k e x) = x := by
  rw [fromReflector, toReflector, (translationsAreInverse _ _ _ _).2, (translationsAreInverse _ _ _ _).2,
    (translationsAreInverse _ _ _ _).2, forwardFourth_backwardFourth]

/-- The reflector is an involution, by its table's own constraint (40_enigma_rotor.md R107). -/
theorem reflect_reflect (u : ReflSpec) : reflect u (reflect u x) = x := of_decide_eq_true u.involutive x

variable {e}

/-- The letter that the reflector gets for the path's answer is the one it has sent back. -/
theorem toReflector_path (paired : PlugboardPaired e) :
    toReflector k e (plugTranslate e (path k e x)) = reflect k.refl (toReflector k e (plugTranslate e x)) := by
  rw [path_eq, plugTranslateIsInvolutive _ _ paired, toReflector_fromReflector]

theorem path_path (paired : PlugboardPaired e) : path k e (path k e x) = x := by
  rw [path_eq, toReflector_path k x paired, reflect_reflect, fromReflector_toReflector,
    plugTranslateIsInvolutive _ _ paired]

end

/-- Settles O36: a fixed point of the path would give a fixed point of the reflector. -/
theorem pathIsInvolutive : Obligations.PathIsInvolutive := by
  refine fun k e x paired => ⟨path_path k x paired, fun noFixedPoint fixed => ?_⟩
  have sentBack := toReflector_path k x paired
  rw [fixed] at sentBack
  exact noFixedPoint _ sentBack.symm

/-- Settles O35: the answer is the path through the tables of the selectors, at the positions that the command leaves. -/
theorem eencAnswersThePath : Obligations.EencAnswersThePath := by
  intro s x right centre left refl romRight romCentre romLeft romRefl
  refine ⟨fun selected => ?three, fun fourth romFourth selected => ?four⟩
  case three =>
    have tables := stackFor_three romRight romCentre romLeft romRefl selected
    exact ⟨_, _, exec_eenc x selected tables, rfl,
      (letterResponse_toNat _).trans (congrArg Fin.val (path_stepRotors _ s.e x))⟩
  case four =>
    have tables := stackFor_four romRight romCentre romLeft romRefl romFourth selected
    exact ⟨_, _, exec_eenc x selected tables, rfl,
      (letterResponse_toNat _).trans (congrArg Fin.val (path_stepRotors _ s.e x))⟩

/-! ### Messages (R157 to R160) -/

/-- The words of a message, one `EENC` for each letter (30_encoding.md R80). -/
abbrev eencWords (f : Bool) (xs : List Letter) : List CommandWord := xs.map fun x => encode (.eenc f x.val)

/-- The `OK` responses that carry letters. -/
abbrev letterResponses (ys : List Letter) : List ResponseWord :=
  ys.map fun y => responseWord .ok (BitVec.ofNat 6 y.val)

/-- The word of `EENC` of a letter is answered with the path at the stepped positions. -/
theorem send_eenc {s : State} {f : Bool} {k : Stack} (x : Letter) (selected : configured s.e f = true)
    (tables : stackFor s.cfg s.e f = some k) :
    ∃ t, send (encode (.eenc f x.val)) s =
        some (t, responseWord .ok (BitVec.ofNat 6 (path k (stepRotors k s.e) x).val)) ∧
      t.e = stepRotors k s.e ∧ t.l = s.l ∧ t.cfg = s.cfg := by
  have wf : (Instr.eenc f x.val).WellFormed := decide_eq_true (by omega)
  exact ⟨_, send_of_decode (decodeEncodeRoundTrip _ wf) (exec_eenc x selected tables) rfl, rfl, rfl, rfl⟩

/-- A message sent letter by letter is answered with the letters that the loop of R160 gives, and leaves its registers. -/
theorem transact_eencWords {f : Bool} {k : Stack} (xs : List Letter) {s : State} (selected : configured s.e f = true)
    (tables : stackFor s.cfg s.e f = some k) :
    ∃ t, transact (eencWords f xs) s = some (t, letterResponses (encipherLetters k xs s.e).1) ∧
      t.e = (encipherLetters k xs s.e).2 ∧ t.l = s.l ∧ t.cfg = s.cfg := by
  induction xs generalizing s with
  | nil => exact ⟨s, rfl, rfl, rfl, rfl⟩
  | cons x xs ih =>
    obtain ⟨t, one, enigma, lorenz, config⟩ := send_eenc x selected tables
    have selected' : configured t.e f = true := by rw [enigma, configured_stepRotors, selected]
    have tables' : stackFor t.cfg t.e f = some k := by rw [enigma, config, stackFor_stepRotors, tables]
    obtain ⟨u, rest, enigma', lorenz', config'⟩ := ih selected' tables'
    rw [enigma] at rest enigma'
    exact ⟨u, transact_cons one rest, enigma', lorenz'.trans lorenz, config'.trans config⟩

theorem encipherLetters_length (k : Stack) (xs : List Letter) (e : EnigmaRegs) :
    (encipherLetters k xs e).1.length = xs.length := by
  induction xs generalizing e with
  | nil => rfl
  | cons x xs ih => exact congrArg Nat.succ (ih (stepRotors k e))

/-- Enciphering the answers from the same registers gives the message and leaves the same registers (R158). -/
theorem encipherLetters_encipherLetters (k : Stack) (xs : List Letter) {e : EnigmaRegs} (paired : PlugboardPaired e) :
    encipherLetters k (encipherLetters k xs e).1 e = (xs, (encipherLetters k xs e).2) := by
  induction xs generalizing e with
  | nil => rfl
  | cons x xs ih =>
    have paired' : PlugboardPaired (stepRotors k e) := plugboardPaired_stepRotors paired
    simp only [encipherLetters, path_path k x paired', ih paired']

/-- The positions after a message depend on its length, the positions before it, and the rotors of slots 0 and 1 (R157). -/
theorem encipherLetters_pos_congr {k k' : Stack} (right : k.right = k'.right) (centre : k.centre = k'.centre)
    (xs ys : List Letter) (length : xs.length = ys.length) {e e' : EnigmaRegs} (pos : e.pos = e'.pos) :
    (encipherLetters k xs e).2.pos = (encipherLetters k' ys e').2.pos := by
  induction xs generalizing ys e e' with
  | nil =>
    cases ys with
    | nil => exact pos
    | cons y ys => cases length
  | cons x xs ih =>
    cases ys with
    | nil => cases length
    | cons y ys => exact ih ys (Nat.succ.inj length) (stepRotors_pos_congr right centre pos)

/-- Settles O39: the device answers with the loop of R160, and the loop undoes itself on a paired plugboard. -/
theorem enigmaSelfReciprocity : Obligations.EnigmaSelfReciprocity := by
  rintro s f xs ⟨-, present, paired, -⟩ selected
  obtain ⟨k, tables⟩ := stackFor_of_configured selected present
  obtain ⟨t, sent, enigma, lorenz, config⟩ := transact_eencWords xs selected tables
  obtain ⟨u, back, enigma', lorenz', config'⟩ :=
    transact_eencWords (encipherLetters k xs s.e).1 selected tables
  rw [encipherLetters_encipherLetters k xs paired] at back enigma'
  exact ⟨_, t, u, sent, back, enigma'.trans enigma.symm, lorenz'.trans lorenz.symm, config'.trans config.symm⟩

/-- Settles O38: both messages leave the positions of the loop of R160, which do not depend on the letters. -/
theorem steppingIgnoresData : Obligations.SteppingIgnoresData := by
  rintro f g xs ys s t s' t' ps qs ⟨-, presentS, -⟩ ⟨-, presentT, -⟩ selectedS selectedT length pos config selRight
    selCentre sentS sentT n
  obtain ⟨k, tablesS⟩ := stackFor_of_configured selectedS presentS
  obtain ⟨k', tablesT⟩ := stackFor_of_configured selectedT presentT
  obtain ⟨right, centre⟩ := stackFor_stepping selectedS tablesS
  obtain ⟨right', centre'⟩ := stackFor_stepping selectedT tablesT
  rw [config, selRight, right', Option.some.injEq] at right
  rw [config, selCentre, centre', Option.some.injEq] at centre
  obtain ⟨u, sentS', leftS, -⟩ := transact_eencWords xs selectedS tablesS
  obtain ⟨v, sentT', leftT, -⟩ := transact_eencWords ys selectedT tablesT
  cases sentS.symm.trans sentS'
  cases sentT.symm.trans sentT'
  rw [leftS, leftT, encipherLetters_pos_congr right.symm centre.symm xs ys length (ext_of_get pos)]

/-! ### The whole-message operation (R160) -/

theorem lettersOfCodes_map (xs : List Letter) : lettersOfCodes (xs.map Fin.val) = some xs := by
  induction xs with
  | nil => rfl
  | cons x xs ih => simp only [List.map_cons, lettersOfCodes, letterOperand_letter, ih]

theorem lettersOfCodes_none {text : List Nat} (bad : ∃ v ∈ text, v > 25) : lettersOfCodes text = none := by
  induction text with
  | nil => simp at bad
  | cons v text ih =>
    rw [List.exists_mem_cons_iff] at bad
    rcases bad with big | later
    · simp only [lettersOfCodes, letterOperand_none big]
    · rw [lettersOfCodes, ih later]
      cases letterOperand v <;> rfl

/-- Codes that are all letters are the codes of a list of letters. -/
theorem exists_letters {text : List Nat} (good : ∀ v ∈ text, v ≤ 25) : ∃ xs : List Letter, xs.map Fin.val = text :=
  ⟨text.pmap Fin.mk fun v inText => Nat.lt_succ_of_le (good v inText), by simp [List.map_pmap]⟩

section
variable {c : Config} {e : EnigmaRegs} {f : Bool} {text : List Nat}

theorem encryptMessage_unconfigured (h : configured e f = false) :
    encryptMessage c f text e = .error (.status .configurationError) := by
  simp only [encryptMessage, h, Bool.false_eq_true, if_false]

theorem encryptMessage_nonLetter (selected : configured e f = true) (bad : ∃ v ∈ text, v > 25) :
    encryptMessage c f text e = .error (.status .invalidInputError) := by
  simp only [encryptMessage, selected, if_true, lettersOfCodes_none bad]

theorem encryptMessage_letters {k : Stack} (xs : List Letter) (selected : configured e f = true)
    (tables : stackFor c e f = some k) : encryptMessage c f (xs.map Fin.val) e = .ok (encipherLetters k xs e) := by
  simp only [encryptMessage, selected, if_true, lettersOfCodes_map, tables]

end

/-- Settles O40: the checks are those of R160, and past them the operation and the device run the same loop. -/
theorem deviceRealisesEncrypt : Obligations.DeviceRealisesEncrypt := by
  rintro s f text ⟨-, present, -⟩
  refine ⟨encryptMessage_unconfigured, encryptMessage_nonLetter, fun selected good => ?letters⟩
  case letters =>
    obtain ⟨k, tables⟩ := stackFor_of_configured selected present
    obtain ⟨xs, rfl⟩ := exists_letters good
    obtain ⟨t, sent, enigma, lorenz, config⟩ := transact_eencWords xs selected tables
    refine ⟨_, _, t, encryptMessage_letters xs selected tables, ?length, ?words, enigma, lorenz, config⟩
    case length => rw [encipherLetters_length, List.length_map]
    case words => rw [List.map_map]; exact sent

end Sys2Proof.Machine

/-! SUPPORT. The Lorenz unit (43_lorenz.md R180 to R193): the outcomes of its commands, the stepping rule, the keystream, and messages sent unit by unit. -/

namespace Sys2Proof.Machine

/-! ### The stepping rule (R188) -/

section
variable (c : Config) (t : CamTable) (l : LorenzRegs) {w : Wheel}

theorem rotateWheels_moves {ws : List Wheel} (distinct : ws.Nodup) (named : w ∈ ws) :
    (rotateWheels l ws).pos[w].toNat = (l.pos[w].toNat + 1) % wheelLen[w] :=
  (rotateWheels_get ws distinct l w).trans (if_pos named)

theorem rotateWheels_rests {ws : List Wheel} (distinct : ws.Nodup) (other : w ∉ ws) :
    (rotateWheels l ws).pos[w] = l.pos[w] :=
  BitVec.eq_of_toNat_eq ((rotateWheels_get ws distinct l w).trans (if_neg other))

/-- The wheels that move on every unit: the Chi wheels and Motor 1 (R188). -/
abbrev drivenWheels : List Wheel := [0, 1, 2, 3, 4, 5]

/-- The wheels that Motor 2 drives, together (R188). -/
abbrev psiWheels : List Wheel := [7, 8, 9, 10, 11]

theorem mem_drivenWheels : w ∈ drivenWheels ↔ w.val ≤ 5 := by revert w; decide

theorem mem_psiWheels : w ∈ psiWheels ↔ 7 ≤ w.val := by revert w; decide

/-- The wheels once the Chi wheels and Motor 1 have moved. -/
def afterMotor1 : LorenzRegs := rotateWheels l drivenWheels

/-- The wheels once Motor 2 has moved or rested, as Motor 1's cam says. -/
def afterMotor2 : LorenzRegs :=
  if camState t (afterMotor1 l) 5 then rotateWheel (afterMotor1 l) 6 else afterMotor1 l

/-- Motor 2's cam, read when `M2_SAMPLE` says. -/
def psiMoves : Bool :=
  match c.m2Sample with
  | .after => camState c.cams (afterMotor2 c.cams l) 6
  | .before => camState c.cams (afterMotor1 l) 6

/-- The step in its three stages. -/
theorem stepWheels_eq :
    stepWheels c l =
      if psiMoves c l then rotateWheels (afterMotor2 c.cams l) psiWheels else afterMotor2 c.cams l := rfl

theorem afterMotor1_driven (driven : w.val ≤ 5) :
    (afterMotor1 l).pos[w].toNat = (l.pos[w].toNat + 1) % wheelLen[w] :=
  rotateWheels_moves l (by decide) (mem_drivenWheels.mpr driven)

theorem afterMotor1_rests (other : 6 ≤ w.val) : (afterMotor1 l).pos[w] = l.pos[w] :=
  rotateWheels_rests l (by decide) (by rw [mem_drivenWheels]; omega)

theorem afterMotor2_other (other : w ≠ 6) : (afterMotor2 t l).pos[w] = (afterMotor1 l).pos[w] := by
  unfold afterMotor2
  split
  · exact set_other _ _ _ _ other
  · rfl

variable {t l} in
theorem afterMotor2_moves (cam : camState t (afterMotor1 l) 5 = true) :
    (afterMotor2 t l).pos[(6 : Wheel)].toNat = (l.pos[(6 : Wheel)].toNat + 1) % 37 := by
  rw [afterMotor2, if_pos cam, rotateWheel_get, if_pos rfl, afterMotor1_rests l (Nat.le_refl 6)]
  rfl

variable {t l} in
theorem afterMotor2_rests (cam : camState t (afterMotor1 l) 5 = false) : afterMotor2 t l = afterMotor1 l :=
  if_neg (Bool.eq_false_iff.mp cam)

/-- The Psi drive moves no Chi wheel and no motor. -/
theorem stepWheels_motors (below : w.val ≤ 6) : (stepWheels c l).pos[w] = (afterMotor2 c.cams l).pos[w] := by
  rw [stepWheels_eq]
  split
  · exact rotateWheels_rests _ (by decide) (by rw [mem_psiWheels]; omega)
  · rfl

/-- Motor 1 stands after the step where Motor 2's drive has read its cam. -/
theorem stepWheels_beforeMotor2 (driven : w.val ≤ 5) : (stepWheels c l).pos[w] = (afterMotor1 l).pos[w] := by
  have other : w ≠ 6 := by rintro rfl; exact absurd driven (by decide)
  rw [stepWheels_motors c l (by omega), afterMotor2_other c.cams l other]

/-- Each Chi wheel and Motor 1 move one place on every unit (R188). -/
theorem stepWheels_driven (driven : w.val ≤ 5) :
    (stepWheels c l).pos[w].toNat = (l.pos[w].toNat + 1) % wheelLen[w] := by
  rw [stepWheels_beforeMotor2 c l driven, afterMotor1_driven l driven]

/-- No drive before the Psi drive moves a Psi wheel. -/
theorem afterMotor2_psi (psi : 7 ≤ w.val) : (afterMotor2 t l).pos[w] = l.pos[w] := by
  have other : w ≠ 6 := by rintro rfl; exact absurd psi (by decide)
  rw [afterMotor2_other t l other, afterMotor1_rests l (by omega)]

variable {c l}

theorem stepWheels_psi_moves (cam : psiMoves c l = true) (psi : 7 ≤ w.val) :
    (stepWheels c l).pos[w].toNat = (l.pos[w].toNat + 1) % wheelLen[w] := by
  rw [stepWheels_eq, if_pos cam, rotateWheels_moves _ (by decide) (mem_psiWheels.mpr psi), afterMotor2_psi _ l psi]

theorem stepWheels_psi_rests (cam : psiMoves c l = false) (psi : 7 ≤ w.val) :
    (stepWheels c l).pos[w] = l.pos[w] := by
  rw [stepWheels_eq, if_neg (Bool.eq_false_iff.mp cam), afterMotor2_psi _ l psi]

theorem psiMoves_after (sample : c.m2Sample = .after) :
    psiMoves c l = camState c.cams (afterMotor2 c.cams l) 6 := by rw [psiMoves, sample]

theorem psiMoves_before (sample : c.m2Sample = .before) :
    psiMoves c l = camState c.cams (afterMotor1 l) 6 := by rw [psiMoves, sample]

/-- Where Motor 2's position is unchanged the cam of Motor 1 was not set: a wheel of 37 places in range has no place that
is its own next one. -/
theorem afterMotor2_of_motor2_rests (inRange : WheelsNormalised l)
    (rests : (stepWheels c l).pos[(6 : Wheel)] = l.pos[(6 : Wheel)]) : afterMotor2 c.cams l = afterMotor1 l := by
  refine afterMotor2_rests (Bool.eq_false_iff.mpr fun cam => ?_)
  have moved := afterMotor2_moves cam
  have small : l.pos[(6 : Wheel)].toNat < 37 := inRange 6
  rw [← stepWheels_motors c l (Nat.le_refl 6), rests] at moved
  omega

end

/-- Settles O45: where Motor 2 rests the two readings of its cam are one. -/
theorem samplesAgreeWhenMotor2Rests : Obligations.SamplesAgreeWhenMotor2Rests := by
  intro c d l cams after before inRange rests
  have still := afterMotor2_of_motor2_rests inRange rests
  have sameDrive : psiMoves c l = psiMoves d l := by
    rw [psiMoves_after after, psiMoves_before before, still, cams]
  rw [stepWheels_eq, stepWheels_eq, sameDrive, cams]

/-- Settles O44: `LENC` leaves the stepped wheels, and every cam that a drive has read is at a position of its own stage. -/
theorem lencStepsTheWheels : Obligations.LencStepsTheWheels := by
  rintro s u ⟨-, -, -, inRange⟩
  have motor1 : (stepWheels s.cfg s.l).pos[(5 : Wheel)] = (afterMotor1 s.l).pos[(5 : Wheel)] :=
    stepWheels_beforeMotor2 s.cfg s.l (Nat.le_refl 5)
  have motor2 : (stepWheels s.cfg s.l).pos[(6 : Wheel)] = (afterMotor2 s.cfg.cams s.l).pos[(6 : Wheel)] :=
    stepWheels_motors s.cfg s.l (Nat.le_refl 6)
  have motor2Before : (afterMotor1 s.l).pos[(6 : Wheel)] = s.l.pos[(6 : Wheel)] :=
    afterMotor1_rests s.l (Nat.le_refl 6)
  refine ⟨_, exec_lenc u inRange, fun w => stepWheels_driven s.cfg s.l, ?_⟩
  rw [respond_l, withLorenz_l, motor1, motor2]
  refine ⟨afterMotor2_moves, fun cam => ?motor2Rests, psiMoves s.cfg s.l, psiMoves_after, fun before => ?sampledBefore,
    fun cam w => stepWheels_psi_moves cam, fun cam w => stepWheels_psi_rests cam⟩
  case motor2Rests => rw [afterMotor2_rests cam, motor2Before]
  case sampledBefore => rw [psiMoves_before before, camState, motor2Before]

/-! ### The keystream (R185) -/

/-- Of five cam states the first is the most significant bit (20_memory.md R58). -/
theorem wheelsToByte_getLsbD (cam : Fin 5 → Bool) (k : Fin 5) :
    (wheelsToByte (cam 0) (cam 1) (cam 2) (cam 3) (cam 4)).getLsbD (4 - k.val) = cam k := by
  simp only [wheelsToByte, BitVec.getLsbD_append]
  fin_cases k <;> simp

/-- The wheel Chi `k + 1`. -/
abbrev chiWheel (k : Fin 5) : Wheel := k.castLE (by decide)

/-- The wheel Psi `k + 1`. -/
abbrev psiWheel (k : Fin 5) : Wheel := k.natAdd 7

theorem keystream_getLsbD (t : CamTable) (l : LorenzRegs) (k : Fin 5) :
    (keystream t l).getLsbD (4 - k.val) = xor (camState t l (chiWheel k)) (camState t l (psiWheel k)) := by
  have chiBit : (chiByte t l).getLsbD (4 - k.val) = camState t l (chiWheel k) :=
    wheelsToByte_getLsbD (fun j => camState t l (chiWheel j)) k
  have psiBit : (psiByte t l).getLsbD (4 - k.val) = camState t l (psiWheel k) :=
    wheelsToByte_getLsbD (fun j => camState t l (psiWheel j)) k
  rw [keystream, BitVec.getLsbD_xor, chiBit, psiBit]

/-- `LENC` answers the unit, enciphered, in the low five bits of the data (R184). -/
theorem exec_lenc_unit {s : State} (u : CodeUnit) (inRange : WheelsNormalised s.l) :
    exec (.lenc u) s =
      .next ((s.withLorenz (stepWheels s.cfg s.l)).respond .ok ((u ^^^ keystream s.cfg.cams s.l).setWidth 6)) := by
  rw [exec_lenc u inRange, BitVec.ofNat_toNat]

/-- Settles O43: the keystream is read at the positions before the step, Chi 1 and Psi 1 the most significant. -/
theorem lencXorsTheKeystream : Obligations.LencXorsTheKeystream := by
  rintro s u ⟨-, -, -, inRange⟩
  refine ⟨_, _, exec_lenc_unit u inRange, rfl, ?unit, fun k chi psi chiAt psiAt => ?bit, rfl, rfl, rfl⟩
  case unit =>
    rw [BitVec.toNat_setWidth]
    omega
  case bit =>
    obtain rfl : chi = chiWheel k := Fin.ext chiAt
    obtain rfl : psi = psiWheel k := Fin.ext (psiAt.trans (Nat.add_comm k.val 7))
    have inData : 4 - k.val < 6 := by omega
    rw [BitVec.getLsbD_setWidth, decide_eq_true inData, Bool.true_and, BitVec.getLsbD_xor, keystream_getLsbD,
      camState, camState]

/-! ### The commands on one wheel, and `LRST` (R182, R183, R189) -/

section
variable {s : State}

theorem exec_lrst : exec .lrst s = .next ((s.withLorenz LorenzRegs.reset).respond .ok 0) := rfl

theorem exec_lpos_refused {wheel p : Nat} (refused : wheel > 11 ∨ ∃ w : Wheel, w.val = wheel ∧ wheelLen[w] ≤ p) :
    exec (.lpos wheel p) s = .next (s.respond .configurationError 0) := by
  rcases refused with absent | ⟨w, rfl, tooFar⟩
  · simp only [exec, execLpos, wheelOperand_none absent]
    rfl
  · have outOfRange : wheelPositionOperand w p = none := if_neg (Nat.not_lt.mpr tooFar)
    simp only [exec, execLpos, wheelOperand_wheel, outOfRange]
    rfl

theorem exec_lrdpos (w : Wheel) : exec (.lrdpos w.val) s = .next (s.respond .ok s.l.pos[w]) := by
  simp only [exec, execLrdpos, wheelOperand_wheel, finish, BitVec.ofNat_toNat, BitVec.setWidth_eq]

theorem exec_lrdpos_refused {wheel : Nat} (absent : wheel > 11) :
    exec (.lrdpos wheel) s = .next (s.respond .configurationError 0) := by
  simp only [exec, execLrdpos, wheelOperand_none absent]
  rfl

end

/-- Settles O18: `LRST` writes the reset wheels, and those are in range for any `LENC`. -/
theorem lrstResetsTheWheels : Obligations.LrstResetsTheWheels :=
  ⟨rfl, fun _ => ⟨_, exec_lrst, fun w => reset_wheel w.val w.isLt, rfl, ⟨rfl, rfl, rfl⟩,
    fun u => ⟨_, _, exec_lenc u lorenzReset_wheelsNormalised, rfl⟩⟩⟩

/-- Settles O41: the accepted operands leave the state `afterLpos`, and the refused ones write nothing. -/
theorem lposSetsAWheel : Obligations.LposSetsAWheel := by
  refine ⟨fun _ _ => rfl, fun s w p inRange => ?accepted, fun s wheel p refused => ?refused⟩
  case accepted =>
    refine ⟨_, exec_lpos inRange s, ?_, fun v other => set_other _ _ _ _ other, rfl, rfl, rfl, rfl⟩
    rw [afterLpos_get inRange, if_pos rfl]
  case refused => exact ⟨_, exec_lpos_refused refused, ⟨rfl, rfl, rfl⟩, rfl, rfl⟩

/-- Settles O42: an `OK` response is its data as a number, and the data is the stored position. -/
theorem lrdposReadsAWheel : Obligations.LrdposReadsAWheel := by
  refine ⟨fun _ => rfl, fun s w => ?read, fun s wheel absent => ?refused⟩
  case read =>
    refine ⟨_, _, exec_lrdpos w, rfl, ?_, ⟨rfl, rfl, rfl⟩, rfl⟩
    rw [responseLayout]
    exact Nat.zero_add _
  case refused => exact ⟨_, exec_lrdpos_refused absent, ⟨rfl, rfl, rfl⟩, rfl, rfl⟩

/-! ### Messages (R191 to R193) -/

/-- The words of a message, one `LENC` for each unit (30_encoding.md R80). -/
abbrev lencWords (us : List CodeUnit) : List CommandWord := us.map fun u => encode (.lenc u)

/-- The `OK` responses that carry units. -/
abbrev unitResponses (vs : List CodeUnit) : List ResponseWord := vs.map fun v => responseWord .ok (v.setWidth 6)

/-- The word of `LENC` is answered with the unit xor the keystream. -/
theorem send_lenc {s : State} (u : CodeUnit) (inRange : WheelsNormalised s.l) :
    ∃ t, send (encode (.lenc u)) s = some (t, responseWord .ok ((u ^^^ keystream s.cfg.cams s.l).setWidth 6)) ∧
      t.l = stepWheels s.cfg s.l ∧ t.e = s.e ∧ t.cfg = s.cfg :=
  ⟨_, send_of_decode (decodeEncodeRoundTrip (.lenc u) rfl) (exec_lenc_unit u inRange) rfl, rfl, rfl, rfl⟩

/-- A message sent unit by unit is answered with the units that the loop of R193 gives, and leaves its wheels. -/
theorem transact_lencWords (us : List CodeUnit) {s : State} (inRange : WheelsNormalised s.l) :
    ∃ t, transact (lencWords us) s = some (t, unitResponses (lorenzEncrypt s.cfg us s.l).1) ∧
      t.l = (lorenzEncrypt s.cfg us s.l).2 ∧ t.e = s.e ∧ t.cfg = s.cfg := by
  induction us generalizing s with
  | nil => exact ⟨s, rfl, rfl, rfl, rfl⟩
  | cons u us ih =>
    obtain ⟨t, one, wheels, enigma, config⟩ := send_lenc u inRange
    have inRange' : WheelsNormalised t.l := wheels ▸ stepWheels_normalised s.cfg inRange
    obtain ⟨v, rest, wheels', enigma', config'⟩ := ih inRange'
    rw [wheels, config] at rest wheels'
    exact ⟨v, transact_cons one rest, wheels', enigma'.trans enigma, config'.trans config⟩

section
variable (c : Config)

/-- Enciphering the answers from the same wheels gives the message and leaves the same wheels (R192). -/
theorem lorenzEncrypt_lorenzEncrypt (us : List CodeUnit) (l : LorenzRegs) :
    lorenzEncrypt c (lorenzEncrypt c us l).1 l = (us, (lorenzEncrypt c us l).2) := by
  induction us generalizing l with
  | nil => rfl
  | cons u us ih => simp only [lorenzEncrypt, ih, BitVec.xor_assoc, BitVec.xor_self, BitVec.xor_zero]

/-- The wheels after a message depend on its length and on the wheels before it (R191). -/
theorem lorenzEncrypt_wheels_congr {us vs : List CodeUnit} (length : us.length = vs.length) (l : LorenzRegs) :
    (lorenzEncrypt c us l).2 = (lorenzEncrypt c vs l).2 := by
  induction us generalizing vs l with
  | nil =>
    cases vs with
    | nil => rfl
    | cons v vs => cases length
  | cons u us ih =>
    cases vs with
    | nil => cases length
    | cons v vs => exact ih (Nat.succ.inj length) (stepWheels c l)

/-- The Chi wheels and Motor 1 are as many places on as there were units (R191). -/
theorem lorenzEncrypt_driven (us : List CodeUnit) {l : LorenzRegs} (inRange : WheelsNormalised l) {w : Wheel}
    (driven : w.val ≤ 5) :
    (lorenzEncrypt c us l).2.pos[w].toNat = (l.pos[w].toNat + us.length) % wheelLen[w] := by
  induction us generalizing l with
  | nil => exact (Nat.mod_eq_of_lt (inRange w)).symm
  | cons u us ih =>
    refine (ih (stepWheels_normalised c inRange)).trans ?_
    rw [stepWheels_driven c l driven, Nat.mod_add_mod, List.length_cons, Nat.add_assoc, Nat.add_comm 1]

end

/-- Settles O46: the wheels after a message are those of the loop of R193, which do not depend on the units. -/
theorem wheelsAfterManyUnits : Obligations.WheelsAfterManyUnits := by
  rintro s us vs ⟨-, -, -, inRange⟩ length
  obtain ⟨t, sentU, wheelsU, -⟩ := transact_lencWords us inRange
  obtain ⟨t', sentV, wheelsV, -⟩ := transact_lencWords vs inRange
  refine ⟨t, t', _, _, sentU, sentV, fun w driven => ?places, ?same⟩
  case places => rw [wheelsU, lorenzEncrypt_driven s.cfg us inRange driven]
  case same => rw [wheelsU, wheelsV, lorenzEncrypt_wheels_congr s.cfg length]

/-- Settles O47: the device answers with the loop of R193, and the loop undoes itself. -/
theorem lorenzRoundTrip : Obligations.LorenzRoundTrip := by
  rintro s us ⟨-, -, -, inRange⟩
  obtain ⟨t, sent, wheels, enigma, config⟩ := transact_lencWords us inRange
  obtain ⟨t', back, wheels', enigma', config'⟩ := transact_lencWords (lorenzEncrypt s.cfg us s.l).1 inRange
  rw [lorenzEncrypt_lorenzEncrypt] at back wheels'
  exact ⟨_, t, t', sent, back, enigma'.trans enigma.symm, wheels'.trans wheels.symm, config'.trans config.symm⟩

end Sys2Proof.Machine

/-! SUPPORT. The ITA2 codec (44_ita2_companion.md): where a table holds a character, what one character adds to an encoding, what one code adds to a decoding, and the round trips. -/

namespace Sys2Proof.Machine

/-! ### Where a table holds a character (R222) -/

section
variable {table : Vector (Option Char) 32} {ch : Char}

theorem mem_allCodes (c : CodeUnit) : c ∈ allCodes :=
  List.mem_map.mpr ⟨c.toNat, List.mem_range.mpr c.isLt, (BitVec.ofNat_toNat 5 c).trans (BitVec.setWidth_eq c)⟩

theorem charOf_of_codeIn {c : CodeUnit} (found : codeIn table ch = some c) : charOf table c = some ch := by
  simpa using List.find?_some found

theorem tableHolds_iff : tableHolds table ch = true ↔ ∃ c, charOf table c = some ch := by
  simp [tableHolds, codeIn, mem_allCodes]

theorem exists_codeIn (held : tableHolds table ch = true) : ∃ c, codeIn table ch = some c :=
  Option.isSome_iff_exists.mp held

theorem codeIn_eq_none (absent : tableHolds table ch = false) : codeIn table ch = none :=
  Option.isNone_iff_eq_none.mp (Option.isSome_eq_false_iff.mp absent)

end

section
variable {t : Ita2Tables} {state need : ShiftState} {ch : Char} {c : CodeUnit}

/-! ### The code of a character (R224) -/

/-- The letter table is preferred. -/
theorem codeFor_of_letter (held : tableHolds t.ltrs ch = true) : ∃ c, codeFor t ch = some (.letterShift, c) := by
  obtain ⟨c, found⟩ := exists_codeIn held
  exact ⟨c, by simp only [codeFor, found]⟩

/-- The figure table serves the characters that the letter table lacks. -/
theorem codeFor_of_figure (absent : tableHolds t.ltrs ch = false) (held : tableHolds t.figs ch = true) :
    ∃ c, codeFor t ch = some (.figureShift, c) := by
  obtain ⟨c, found⟩ := exists_codeIn held
  exact ⟨c, by simp only [codeFor, codeIn_eq_none absent, found, Option.map_some]⟩

/-- The table of the shift state that a character needs gives the character at its code. -/
theorem charOf_of_codeFor (code : codeFor t ch = some (need, c)) : charOf (tableOf t need) c = some ch := by
  unfold codeFor at code
  split at code
  next found =>
    cases code
    exact charOf_of_codeIn found
  next =>
    obtain ⟨d, found, same⟩ := Option.map_eq_some_iff.mp code
    cases same
    exact charOf_of_codeIn found

theorem supported_of_codeFor (code : codeFor t ch = some (need, c)) : supported t ch = true := by
  rw [supported, code, Option.isSome_some]

theorem exists_codeFor (ok : supported t ch = true) : ∃ need c, codeFor t ch = some (need, c) := by
  obtain ⟨⟨need, c⟩, code⟩ := Option.isSome_iff_exists.mp ok
  exact ⟨need, c, code⟩

/-! ### The reserved codes (R222) -/

/-- One of the two codes that both tables reserve. -/
def isShiftCode (t : Ita2Tables) (c : CodeUnit) : Bool := c == t.ltrsCode || c == t.figsCode

theorem ltrsCode_ne_figsCode (t : Ita2Tables) : t.ltrsCode ≠ t.figsCode := by
  have constraints := t.constraints
  simp only [ita2Constraints, Bool.and_eq_true, bne_iff_ne] at constraints
  tauto

/-- No table holds a character at a reserved code. -/
theorem charOf_shiftCode (t : Ita2Tables) (state need : ShiftState) :
    charOf (tableOf t state) (shiftCode t need) = none := by
  have constraints := t.constraints
  simp only [ita2Constraints, Bool.and_eq_true, Option.isNone_iff_eq_none] at constraints
  cases state <;> cases need <;> simp only [tableOf, shiftCode, constraints]

theorem isShiftCode_iff : isShiftCode t c = true ↔ ∃ need, c = shiftCode t need := by
  simp only [isShiftCode, Bool.or_eq_true, beq_iff_eq]
  constructor
  · rintro (letters | figures)
    · exact ⟨.letterShift, letters⟩
    · exact ⟨.figureShift, figures⟩
  · rintro ⟨_ | _, rfl⟩
    · exact .inl rfl
    · exact .inr rfl

theorem isShiftCode_of_charOf (char : charOf (tableOf t state) c = some ch) : isShiftCode t c = false := by
  refine Bool.eq_false_iff.mpr fun reserved => ?_
  obtain ⟨need, rfl⟩ := isShiftCode_iff.mp reserved
  rw [charOf_shiftCode] at char
  cases char

/-! ### What one character adds to an encoding (R224) -/

theorem emitCodes_cons_same {text : List Char} (code : codeFor t ch = some (state, c)) :
    emitCodes t state (ch :: text) = c :: emitCodes t state text := by
  simp only [emitCodes, code, if_true]

theorem emitCodes_cons_shift {text : List Char} (code : codeFor t ch = some (need, c)) (other : need ≠ state) :
    emitCodes t state (ch :: text) = shiftCode t need :: c :: emitCodes t need text := by
  simp only [emitCodes, code, if_neg other]

theorem ita2Encode_of_supported {text : List Char} (ok : ∀ ch ∈ text, supported t ch = true) :
    ita2Encode t text = .ok (emitCodes t .letterShift text) :=
  if_pos (List.all_eq_true.mpr ok)

/-! ### What one code adds to a decoding (R225) -/

section
variable {pass : Bool} {codes : List CodeUnit} {rest : List Token}

/-- A shift code sets the state, and stands in the text when shifts are passed through. -/
theorem decodeFrom_shift (ok : decodeFrom t pass need codes = .ok rest) :
    decodeFrom t pass state (shiftCode t need :: codes) =
      .ok (if pass then .shift (shiftCode t need) :: rest else rest) := by
  cases need with
  | letterShift => simp only [decodeFrom, shiftCode, or_true, if_true, ltrsCode_ne_figsCode, if_false, ok]
  | figureShift => simp only [decodeFrom, shiftCode, true_or, if_true, ok]

/-- The code of a character of the state's table gives the character. -/
theorem decodeFrom_char (char : charOf (tableOf t state) c = some ch) (ok : decodeFrom t pass state codes = .ok rest) :
    decodeFrom t pass state (c :: codes) = .ok (.char ch :: rest) := by
  have ordinary : ¬(c = t.figsCode ∨ c = t.ltrsCode) := by
    simpa [isShiftCode, and_comm] using isShiftCode_of_charOf char
  simp only [decodeFrom, if_neg ordinary, char, ok]

end

/-! ### The round trip (R226) -/

/-- Decoding an encoding gives the text, from any shift state that both start in: each character is met in the state
that it was encoded in. Only tokens of shifts passed through are added. -/
theorem decodeFrom_emitCodes (pass : Bool) (state : ShiftState) {text : List Char}
    (ok : ∀ ch ∈ text, supported t ch = true) :
    ∃ tokens, decodeFrom t pass state (emitCodes t state text) = .ok tokens ∧ charsOf tokens = text ∧
      (pass = false → tokens = text.map .char) := by
  induction text generalizing state with
  | nil => exact ⟨[], rfl, rfl, fun _ => rfl⟩
  | cons ch text ih =>
    obtain ⟨okChar, okText⟩ := List.forall_mem_cons.mp ok
    obtain ⟨need, c, code⟩ := exists_codeFor okChar
    obtain ⟨tokens, decoded, chars, swallowed⟩ := ih need okText
    have decodedChar := decodeFrom_char (charOf_of_codeFor code) decoded
    by_cases same : need = state
    case pos =>
      subst same
      refine ⟨_, (emitCodes_cons_same code).symm ▸ decodedChar, ?_, fun swallow => ?_⟩
      · rw [charsOf, chars]
      · rw [swallowed swallow, List.map_cons]
    case neg =>
      refine ⟨_, (emitCodes_cons_shift code same).symm ▸ decodeFrom_shift decodedChar, ?_, fun swallow => ?_⟩
      · cases pass <;> simp only [charsOf, chars, if_true, Bool.false_eq_true, if_false]
      · simp only [swallow, Bool.false_eq_true, if_false, swallowed swallow, List.map_cons]

theorem ita2Decode_emitCodes {text : List Char} (ok : ∀ ch ∈ text, supported t ch = true) :
    ita2Decode t false (emitCodes t .letterShift text) = .ok (text.map .char) := by
  obtain ⟨tokens, decoded, -, swallowed⟩ := decodeFrom_emitCodes false .letterShift ok
  rw [ita2Decode, decoded, swallowed rfl]

end

/-- Settles O56: `Encode` checks the text and emits it, and decoding what it emits gives the text in both modes. -/
theorem ita2RoundTrip : Obligations.Ita2RoundTrip := by
  intro t text ok
  obtain ⟨tokens, decoded, chars, -⟩ := decodeFrom_emitCodes true .letterShift ok
  exact ⟨_, tokens, ita2Encode_of_supported ok, ita2Decode_emitCodes ok, decoded, chars⟩

/-- Settles O58: enciphering twice from the same wheels gives the codes back (R192), and those decode to the text. -/
theorem lorenzTextRoundTrip : Obligations.LorenzTextRoundTrip := by
  intro t c l text ok
  refine ⟨_, ita2Encode_of_supported ok, ?_⟩
  rw [lorenzEncrypt_lorenzEncrypt]
  exact ita2Decode_emitCodes ok

/-! ### The number of codes (R226) -/

/-- How often the shift state changes on the way through the states that a text needs, from a first state. -/
def shiftChanges : ShiftState → List ShiftState → Nat
  | _, [] => 0
  | state, need :: needs => (if need = state then 0 else 1) + shiftChanges need needs

section
variable {t : Ita2Tables} {needOf : Char → ShiftState} {text : List Char}

/-- An encoding has one code for each character and one shift code for each change of state. -/
theorem emitCodes_counts (state : ShiftState) (coded : ∀ ch ∈ text, ∃ c, codeFor t ch = some (needOf ch, c)) :
    (emitCodes t state text).length = text.length + shiftChanges state (text.map needOf) ∧
      ((emitCodes t state text).filter (isShiftCode t)).length = shiftChanges state (text.map needOf) := by
  induction text generalizing state with
  | nil => exact ⟨rfl, rfl⟩
  | cons ch text ih =>
    obtain ⟨⟨c, code⟩, codedText⟩ := List.forall_mem_cons.mp coded
    obtain ⟨length, shifts⟩ := ih (needOf ch) codedText
    have ordinary : isShiftCode t c = false := isShiftCode_of_charOf (charOf_of_codeFor code)
    have reserved : isShiftCode t (shiftCode t (needOf ch)) = true := isShiftCode_iff.mpr ⟨_, rfl⟩
    by_cases same : needOf ch = state
    case pos =>
      subst same
      constructor
      · simp only [emitCodes_cons_same code, List.map_cons, List.length_cons, shiftChanges, if_true, length]
        omega
      · simp [emitCodes_cons_same code, shiftChanges, ordinary, shifts]
    case neg =>
      constructor
      · simp only [emitCodes_cons_shift code same, List.map_cons, List.length_cons, shiftChanges, if_neg same, length]
        omega
      · simp [emitCodes_cons_shift code same, shiftChanges, same, ordinary, reserved, shifts, Nat.add_comm]

end

/-! ### The source's vector (R222, R226) -/

/-- The letters are encoded from the letter table. -/
theorem codeFor_upperCase (t : Ita2Tables) {ch : Char} (letter : ch ∈ upperCase) :
    ∃ c, codeFor t ch = some (.letterShift, c) := by
  obtain ⟨letters, -⟩ := Bool.and_eq_true_iff.mp t.alphabet
  exact codeFor_of_letter (List.all_eq_true.mp letters ch letter)

/-- The figure table holds the digits and the letter table does not. -/
theorem tableHolds_digits (t : Ita2Tables) {ch : Char} (digit : ch ∈ digits) :
    tableHolds t.figs ch = true ∧ tableHolds t.ltrs ch = false := by
  obtain ⟨-, figures⟩ := Bool.and_eq_true_iff.mp t.alphabet
  simpa using List.all_eq_true.mp figures ch digit

/-- The digits are encoded from the figure table. -/
theorem codeFor_digits (t : Ita2Tables) {ch : Char} (digit : ch ∈ digits) :
    ∃ c, codeFor t ch = some (.figureShift, c) :=
  codeFor_of_figure (tableHolds_digits t digit).2 (tableHolds_digits t digit).1

/-- The shift state that a letter or a digit needs, whatever the tables. -/
def vectorNeed (ch : Char) : ShiftState := if ch ∈ digits then .figureShift else .letterShift

theorem codeFor_vectorNeed (t : Ita2Tables) {ch : Char} (known : ch ∈ upperCase ++ digits) :
    ∃ c, codeFor t ch = some (vectorNeed ch, c) := by
  by_cases digit : ch ∈ digits
  case pos => simpa only [vectorNeed, if_pos digit] using codeFor_digits t digit
  case neg =>
    have letter : ch ∈ upperCase := (List.mem_append.mp known).resolve_right digit
    simpa only [vectorNeed, if_neg digit] using codeFor_upperCase t letter

/-- The source's round-trip vector. -/
abbrev sourceVector : List Char := upperCase ++ digits ++ ['A', '1', 'B', '2', 'C', '3']

theorem codeFor_sourceVector (t : Ita2Tables) : ∀ ch ∈ sourceVector, ∃ c, codeFor t ch = some (vectorNeed ch, c) := by
  have tail : ['A', '1', 'B', '2', 'C', '3'] ⊆ upperCase ++ digits := by decide
  exact List.forall_mem_append.mpr
    ⟨fun ch known => codeFor_vectorNeed t known, fun ch inTail => codeFor_vectorNeed t (tail inTail)⟩

theorem supported_sourceVector (t : Ita2Tables) : ∀ ch ∈ sourceVector, supported t ch = true := fun ch mem =>
  (codeFor_sourceVector t ch mem).elim fun _ code => supported_of_codeFor code

/-- From letter shift, the vector changes state before `0`, before `A` and before each of the five after it. -/
theorem shiftChanges_sourceVector : shiftChanges .letterShift (sourceVector.map vectorNeed) = 7 := by decide

/-- Settles O57: the alphabet facts are those that the tables carry, the counts are those of any text whose characters'
states are known, and the vector is a text of supported characters. -/
theorem ita2VectorRoundTrip : Obligations.Ita2VectorRoundTrip := by
  intro t
  obtain ⟨length, shifts⟩ := emitCodes_counts .letterShift (codeFor_sourceVector t)
  rw [shiftChanges_sourceVector] at length shifts
  refine ⟨fun ch letter => ?letters, fun ch digit => ⟨fun c char => ?absent, ?figures⟩,
    _, ita2Encode_of_supported (supported_sourceVector t), length, shifts,
    ita2Decode_emitCodes (supported_sourceVector t)⟩
  case letters =>
    obtain ⟨c, code⟩ := codeFor_upperCase t letter
    exact ⟨c, code, charOf_of_codeFor code⟩
  case absent =>
    have held : tableHolds t.ltrs ch = true := tableHolds_iff.mpr ⟨c, char⟩
    rw [(tableHolds_digits t digit).2] at held
    cases held
  case figures =>
    obtain ⟨c, code⟩ := codeFor_digits t digit
    exact ⟨c, code, charOf_of_codeFor code⟩

end Sys2Proof.Machine

/-! SUPPORT. Errors (60_exceptions.md): no step stops the machine (R241, R248), the causes of each error (R241, R242), and an error writes nothing (R247). -/

namespace Sys2Proof.Machine

/-! ### Every step goes on -/

/-- Settles O11: a command word is answered, `rst` resets, and with no input nothing happens. -/
theorem deviceNeverStops : Obligations.DeviceNeverStops := by
  intro s inv
  cases taken : s.inputs with
  | nil => exact ⟨s, noInputNoChange s taken⟩
  | cons event rest =>
    cases event with
    | command c =>
      obtain ⟨t, -, next, -⟩ := everyWordIsAnswered s c rest inv taken
      exact ⟨t, next⟩
    | rst | commandCutByRst => exact ⟨deviceReset s.takeInput, by rw [step, taken]⟩

/-! ### Which status a command answers -/

section
variable {i : Instr} {s : State}

/-- The only cause of `InvalidInputError` (60_exceptions.md R242). -/
def invalidInputCause (i : Instr) (s : State) : Prop := ∃ f x, i = .eenc f x ∧ x > 25 ∧ configured s.e f = true

/-- For `EENC` the table of causes says `not Configured(f)` (60_exceptions.md R241). -/
theorem configurationErrorCause_eenc {f : Bool} {x : Nat} :
    configurationErrorCause (.eenc f x) s ↔ configured s.e f = false := by
  rw [← Bool.not_eq_true, configured_iff]
  cases f <;> simp [configurationErrorCause, imp_iff_not_or]

/-- Each line of the table of causes is a test the command's rule makes before it writes (R241). -/
theorem exec_of_configurationErrorCause (cause : configurationErrorCause i s) :
    exec i s = .next (s.respond .configurationError 0) := by
  cases i with
  | erst | erdpos | lrst | lenc => cases cause
  | esel slot id => exact exec_esel_absent cause
  | epos slot pos => exact exec_epos_refused (positionOperand_none cause)
  | ering slot ring => exact exec_ering_refused (ringOperand_none cause)
  | erefl id => exact exec_erefl_absent cause
  | eplug a b =>
    by_cases letters : a < 26 ∧ b < 26
    · lift a to Letter using letters.1
      lift b to Letter using letters.2
      rw [exec_eplug_letters, if_pos]
      rcases cause with nonLetter | ⟨x, y, sameX, sameY, taken⟩ | same
      · omega
      · obtain rfl := Fin.ext sameX
        obtain rfl := Fin.ext sameY
        exact .inr (taken.imp plugTakenByOther_eq_true.mpr plugTakenByOther_eq_true.mpr)
      · exact .inl (Fin.ext same)
    · exact exec_eplug_nonLetter (by omega)
  | eunplug a => exact exec_eunplug_nonLetter cause
  | eenc f x => exact exec_eenc_unconfigured x (configurationErrorCause_eenc.mp cause)
  | lpos wheel p => exact exec_lpos_refused cause
  | lrdpos wheel => exact exec_lrdpos_refused cause

theorem exec_of_invalidInputCause (cause : invalidInputCause i s) :
    exec i s = .next (s.respond .invalidInputError 0) := by
  obtain ⟨f, x, rfl, nonLetter, selected⟩ := cause
  exact exec_eenc_nonLetter selected nonLetter

/-- With neither cause every operand is in its range and every lookup finds its entry, so the command ends in a value. -/
theorem exec_of_no_cause (inv : s.Inv) (accepted : ¬ configurationErrorCause i s) (letter : ¬ invalidInputCause i s) :
    ∃ u d, exec i s = .next (State.respond u .ok d) := by
  obtain ⟨-, selections, -, wheels⟩ := inv
  cases i with
  | erst => exact ⟨_, _, exec_erst⟩
  | esel slot id =>
    obtain ⟨r, present⟩ := Option.ne_none_iff_exists'.mp accepted
    exact ⟨_, _, exec_esel_present present⟩
  | epos slot pos =>
    obtain ⟨notZero, notAbove⟩ := not_or.mp accepted
    exact ⟨_, _, exec_epos_accepted (positionOperand_some (by omega))⟩
  | ering slot ring => exact ⟨_, _, exec_ering_accepted (ringOperand_some (Nat.not_lt.mp accepted))⟩
  | erefl id =>
    obtain ⟨u, present⟩ := Option.ne_none_iff_exists'.mp accepted
    exact ⟨_, _, exec_erefl_present present⟩
  | eplug a b =>
    obtain ⟨letters, rest⟩ := not_or.mp accepted
    obtain ⟨free, different⟩ := not_or.mp rest
    lift a to Letter using by omega
    lift b to Letter using by omega
    rw [exec_eplug_letters, if_neg]
    · exact ⟨_, _, rfl⟩
    · rintro (same | taken)
      · exact different (congrArg Fin.val same)
      · exact free ⟨a, b, rfl, rfl, taken.imp plugTakenByOther_eq_true.mp plugTakenByOther_eq_true.mp⟩
  | eunplug a =>
    lift a to Letter using Nat.gt_of_not_le accepted
    exact ⟨_, _, exec_eunplug_letter a⟩
  | eenc f x =>
    rw [configurationErrorCause_eenc, Bool.not_eq_false] at accepted
    lift x to Letter using Nat.gt_of_not_le fun nonLetter => letter ⟨f, x, rfl, nonLetter, accepted⟩
    obtain ⟨k, tables⟩ := stackFor_of_configured accepted selections
    exact ⟨_, _, exec_eenc x accepted tables⟩
  | erdpos slot => exact ⟨_, _, exec_erdpos⟩
  | lrst => exact ⟨_, _, exec_lrst⟩
  | lpos wheel p =>
    obtain ⟨present, inRange⟩ := not_or.mp accepted
    lift wheel to Wheel using by omega
    exact ⟨_, _, exec_lpos (Nat.not_le.mp fun tooFar => inRange ⟨wheel, rfl, tooFar⟩) s⟩
  | lenc u => exact ⟨_, _, exec_lenc u wheels⟩
  | lrdpos wheel =>
    lift wheel to Wheel using Nat.gt_of_not_le accepted
    exact ⟨_, _, exec_lrdpos wheel⟩

/-- A command that ends in a response answers with that response's status. -/
theorem answers_status_iff {u : State} {st : Status} {d : BitVec 6} {code : BitVec 2}
    (next : exec i s = .next (u.respond st d)) :
    (∃ t r, exec i s = .next t ∧ t.rsp = some r ∧ rspStatus r = code) ↔ statusCode st = code := by
  simp [next]

end

/-- Settles O49: a command with a cause of the table answers status 1, and any other command 2 or 0. -/
theorem configurationErrorCauses : Obligations.ConfigurationErrorCauses := by
  intro i s inv
  by_cases cause : configurationErrorCause i s
  · exact iff_of_true ((answers_status_iff (exec_of_configurationErrorCause cause)).mpr rfl) cause
  · refine iff_of_false ?_ cause
    by_cases nonLetter : invalidInputCause i s
    · rw [answers_status_iff (exec_of_invalidInputCause nonLetter)]
      decide
    · obtain ⟨u, d, next⟩ := exec_of_no_cause inv cause nonLetter
      rw [answers_status_iff next]
      decide

/-- Settles O50: a command with a cause of the table answers status 1, a non-letter on a configured unit 2, and any
other command 0. -/
theorem invalidInputErrorCauses : Obligations.InvalidInputErrorCauses := by
  intro i s inv
  change _ ↔ invalidInputCause i s
  by_cases nonLetter : invalidInputCause i s
  · exact iff_of_true ((answers_status_iff (exec_of_invalidInputCause nonLetter)).mpr rfl) nonLetter
  · refine iff_of_false ?_ nonLetter
    by_cases cause : configurationErrorCause i s
    · rw [answers_status_iff (exec_of_configurationErrorCause cause)]
      decide
    · obtain ⟨u, d, next⟩ := exec_of_no_cause inv cause nonLetter
      rw [answers_status_iff next]
      decide

/-! ### An error writes nothing -/

theorem sameRegisters_trans {s t u : State} (first : SameRegisters s t) (second : SameRegisters t u) :
    SameRegisters s u := by
  obtain ⟨e, l, cfg⟩ := first
  obtain ⟨e', l', cfg'⟩ := second
  exact ⟨e'.trans e, l'.trans l, cfg'.trans cfg⟩

/-- A word answered with an error leaves the state it was sent to, with the status and data 0 presented (R247). -/
theorem send_refused {c : CommandWord} {s t : State} {r : ResponseWord} (one : send c s = some (t, r))
    (error : rspStatus r ≠ 0) : ∃ st, t = s.respond st 0 ∧ r = responseWord st 0 := by
  obtain ⟨next, answer⟩ := send_eq_some.mp one
  cases legal : decode c with
  | ok i =>
    rw [step_present legal] at next
    obtain ⟨d, ok⟩ | rfl | rfl := exec_answers next
    · obtain rfl := Option.some.inj (answer.symm.trans ok)
      exact absurd (rspStatus_responseWord .ok d) error
    · exact ⟨_, rfl, (Option.some.inj answer).symm⟩
    · exact ⟨_, rfl, (Option.some.inj answer).symm⟩
  | error why =>
    rw [send_illegal legal] at one
    cases one
    exact ⟨_, rfl, rfl⟩

/-- Settles O51: the state after an error is the state before it with the response presented. -/
theorem errorsWriteNothing : Obligations.ErrorsWriteNothing := by
  intro s t c r one error
  obtain ⟨st, rfl, rfl⟩ := send_refused one error
  exact ⟨rspData_responseWord st 0, ⟨rfl, rfl, rfl⟩, rfl⟩

theorem transact_refused {cs : List CommandWord} {s t : State} {rs : List ResponseWord}
    (sent : transact cs s = some (t, rs)) (errors : ∀ r ∈ rs, rspStatus r ≠ 0) : SameRegisters s t := by
  induction cs generalizing s rs with
  | nil =>
    cases sent
    exact ⟨rfl, rfl, rfl⟩
  | cons c cs ih =>
    obtain ⟨u, r, qs, one, rest, rfl⟩ := transact_cons_inv sent
    obtain ⟨error, errors⟩ := List.forall_mem_cons.mp errors
    exact sameRegisters_trans (errorsWriteNothing s u c r one error).2.1 (ih rest errors)

/-- Settles O52: the refused words leave equal registers, on which any further words are answered alike. -/
theorem refusedCommandsLeaveNoTrace : Obligations.RefusedCommandsLeaveNoTrace := by
  intro bad good s t u rs qs sent errors further
  have same := transact_refused sent errors
  exact ⟨same, equalRegistersAnswerAlike good s t u qs same further⟩

end Sys2Proof.Machine

/-! SUPPORT. Reset (70_reset_and_hazards.md R270; 10_state.md section 7): the value of every register, and the step on `rst`. -/

namespace Sys2Proof.Machine

/-- Settles O15: the reset registers hold one value at every index, and the reset ports are empty. -/
theorem resetValues : Obligations.ResetValues :=
  ⟨fun k => ⟨reset_pos k.val k.isLt, reset_ring k.val k.isLt, reset_selv k.val k.isLt, reset_sel k.val k.isLt⟩,
    reset_refv, reset_ref, fun x => reset_plug x.val x.isLt, fun w => reset_wheel w.val w.isLt, rfl, rfl⟩

section
variable {s : State} {rest : List HostEvent}

/-- A step on `rst` resets the device, be the input the signal alone or a command that the signal cuts. -/
theorem step_rst (taken : s.inputs = .rst :: rest ∨ ∃ c, s.inputs = .commandCutByRst c :: rest) :
    step s = .next (deviceReset s.takeInput) := by
  obtain alone | ⟨c, cut⟩ := taken
  · rw [step, alone]
  · rw [step, cut]

/-- `rst` takes itself from the inputs, with the command it cuts. -/
theorem takeInput_inputs_rst (taken : s.inputs = .rst :: rest ∨ ∃ c, s.inputs = .commandCutByRst c :: rest) :
    s.takeInput.inputs = rest := by
  obtain alone | ⟨c, cut⟩ := taken
  · rw [takeInput_inputs, alone, List.tail_cons]
  · rw [takeInput_inputs, cut, List.tail_cons]

end

/-- Settles O16: either `rst` is `deviceReset`, which writes the register sets that `ERST` and `LRST` write. -/
theorem rstGivesTheResetState : Obligations.RstGivesTheResetState := by
  intro s rest taken
  obtain ⟨slots, refv, ref, plugs, wheels, -, -⟩ := resetValues
  refine ⟨_, _, _, step_rst taken, fun k => ?slot, refv, ref, plugs, wheels, rfl, rfl, takeInput_inputs_rst taken,
    exec_erst, exec_lrst, ⟨rfl, rfl, rfl⟩⟩
  case slot =>
    obtain ⟨pos, ring, selv, sel⟩ := slots k
    exact ⟨selv, sel, pos, ring⟩

end Sys2Proof.Machine

/-! SUPPORT. The worked encodings (30_encoding.md section 9). -/

namespace Sys2Proof

theorem decode_of_encode_eq {i : Instr} {c : CommandWord} (word : encode i = c) (wf : i.WellFormed) :
    decode c = .ok i := by
  subst word
  exact decodeEncodeRoundTrip i wf

/-- Settles O6: each word is the encoding of the well-formed command beside it. -/
theorem workedEncodingsDecode : Obligations.WorkedEncodingsDecode := by
  unfold Obligations.WorkedEncodingsDecode
  and_intros
  all_goals exact decode_of_encode_eq (by decide) (by decide)

end Sys2Proof
